-- ==== Sys2Proof/Word.lean ====
section
/-! DEFINITION. The widths the spec gives its values (00_scope.md R7, R9). -/

namespace Sys2Proof

/-- A cell of a buffer or table: 8 bits (00_scope.md R7). -/
abbrev Byte := BitVec 8

/-- A location of the register space, a command word, a word of the accumulator: 32 bits. -/
abbrev Word := BitVec 32

/-- The index of a location of the register space: 12 bits (20_memory.md R40). -/
abbrev Index := BitVec 12

/-- A digit value, 0 to 57 (00_scope.md glossary), the content of a working-buffer cell
(10_state.md R28). -/
abbrev Digit := Fin 58

end Sys2Proof
end

