-- ==== Sys2Proof/Syntax.lean ====
section
/-! DEFINITION. The instructions: one constructor of `Instr` for each row of
spec/opcode_table.json, and the lines of a host script (30_encoding.md R63), which is what brings an
instruction to the block. -/

namespace Sys2Proof

/-- What a legal command word names (30_encoding.md R65). -/
inductive Command where
  /-- Bytes to symbols (R57). -/
  | enc
  /-- Symbols to bytes (R58). -/
  | dec
  /-- Load an alphabet from IBUF (R59). -/
  | lda
  /-- Make predefined alphabet `k` active (R60). -/
  | sela (k : BitVec 1)
  deriving DecidableEq, Repr

/-- The rows of the opcode table. ENC, DEC, LDA and SELA are Format C command words; RD and WR are
Format T transactions (30_encoding.md R55, R67). The operand types are exactly the fields. -/
inductive Instr where
  /-- ENC (R57). -/
  | enc
  /-- DEC (R58). -/
  | dec
  /-- LDA (R59). -/
  | lda
  /-- SELA k, `k` being bit 8 of the command word (R60). -/
  | sela (k : BitVec 1)
  /-- RD addr: the host reads location `addr` (R66). -/
  | rd (addr : BitVec 12)
  /-- WR addr, wdata: the host writes `wdata` to location `addr` (R66). -/
  | wr (addr : BitVec 12) (wdata : BitVec 32)
  deriving DecidableEq, Repr

/-- A command as an instruction. -/
def Command.toInstr : Command → Instr
  | .enc => .enc
  | .dec => .dec
  | .lda => .lda
  | .sela k => .sela k

/-- One line of a host script (30_encoding.md R63, R64): a 32-bit word for CMD written by its
mnemonic, a 45-bit transaction record, or `RESET`. -/
inductive HostStep where
  /-- Format C: the host writes this command word to CMD. -/
  | command (w : Word)
  /-- Format T: the host makes the transaction of this record. -/
  | transaction (r : BitVec 45)
  /-- `RESET` on a line of its own is the Reset step. -/
  | reset
  deriving DecidableEq, Repr

end Sys2Proof
end

