-- ==== Sys2Proof/Decode.lean ====
section
/-! DEFINITION. The decoder, total on every word and every record (30_encoding.md R65, R66), and
after it the encoder, written from the same rules. -/

namespace Sys2Proof

/-- Why a line of a host script decodes to no instruction. -/
inductive DecodeError where
  /-- A word that matches none of R57 to R60 (30_encoding.md R62). The hardware does not refuse it:
  writing it to CMD completes with the error IllegalCommand (60_exceptions.md R146). -/
  | illegalCommand
  /-- A `RESET` line: the Reset step is no instruction of the opcode table. -/
  | resetLine
  deriving DecidableEq, Repr

/-- DecodeCmd (30_encoding.md R65), total on all 32-bit words. -/
def decodeCmd (w : Word) : Except DecodeError Command :=
  if w.extractLsb' 9 23 ≠ 0#23 then
    .error .illegalCommand
  else
    let op := w.extractLsb' 0 8
    let k := w.extractLsb' 8 1
    if op = 0x01#8 ∧ k = 0#1 then .ok .enc
    else if op = 0x02#8 ∧ k = 0#1 then .ok .dec
    else if op = 0x03#8 ∧ k = 0#1 then .ok .lda
    else if op = 0x04#8 then .ok (.sela k)
    else .error .illegalCommand

/-- A Format T record: bit 44 is `we`, bits 43 to 32 `addr`, bits 31 to 0 `wdata`, ignored for a read
(30_encoding.md R66). -/
def decodeRecord (r : BitVec 45) : Instr :=
  let addr := r.extractLsb' 32 12
  if r.extractLsb' 44 1 = 1#1 then .wr addr (r.extractLsb' 0 32) else .rd addr

/-- The instruction a line of a host script makes the block run. -/
def decode : HostStep → Except DecodeError Instr
  | .command w =>
    match decodeCmd w with
    | .ok c => .ok c.toInstr
    | .error e => .error e
  | .transaction r => .ok (decodeRecord r)
  | .reset => .error .resetLine

/-- The line that a row of the opcode table stands for: a word of at most 32 bits is a Format C
command word, a longer one a Format T record. -/
def tableStep (nbits w : Nat) : HostStep :=
  if nbits ≤ 32 then .command (BitVec.ofNat 32 w) else .transaction (BitVec.ofNat 45 w)

/-- How many bits the format of a table row of `nbits` bits has (30_encoding.md R55). -/
def tableWidth (nbits : Nat) : Nat :=
  if nbits ≤ 32 then 32 else 45

/-- The instruction the decoder reads from the bits `w` of a row of spec/opcode_table.json, bit 0
being the least significant. A number with a bit above its format decodes to nothing. -/
def decodeTableWord (nbits w : Nat) : Option Instr :=
  if w < 2 ^ tableWidth nbits then
    match decode (tableStep nbits w) with
    | .ok i => some i
    | .error _ => none
  else none

/-- The command words of 30_encoding.md R57 to R60: `zero`, then `k` in bit 8, then `op`. -/
def encodeCmd : Command → Word
  | .enc => 0x00000001#32
  | .dec => 0x00000002#32
  | .lda => 0x00000003#32
  | .sela k => 0#23 ++ k ++ 0x04#8

/-- The transaction record of a read: `we` = 0 and `wdata` = 0 (30_encoding.md R66). -/
def recordRead (addr : BitVec 12) : BitVec 45 :=
  0#1 ++ addr ++ 0#32

/-- The transaction record of a write: `we` = 1 (30_encoding.md R66). -/
def recordWrite (addr : BitVec 12) (wdata : BitVec 32) : BitVec 45 :=
  1#1 ++ addr ++ wdata

/-- The line of a host script that holds an instruction. -/
def encode : Instr → HostStep
  | .enc => .command (encodeCmd .enc)
  | .dec => .command (encodeCmd .dec)
  | .lda => .command (encodeCmd .lda)
  | .sela k => .command (encodeCmd (.sela k))
  | .rd addr => .transaction (recordRead addr)
  | .wr addr wdata => .transaction (recordWrite addr wdata)

end Sys2Proof
end

