-- ==== Sys2Proof/Machine/Flags.lean ====
section
/-! DEFINITION. The one status the block has: the result code STATUS.ERR (60_exceptions.md R141). -/

namespace Sys2Proof.Machine

/-- The kinds of error a command can end with (60_exceptions.md R141). -/
inductive Err where
  /-- DEC of a string of length 0 (R142). -/
  | emptyInput
  /-- DEC of a cell that is not a symbol of the active alphabet (R143). -/
  | invalidDigit
  /-- DEC whose accumulator overflows: unreachable, kept by the spec (R144). -/
  | numericOverflow
  /-- LDA of a malformed alphabet (R145). -/
  | alphabetError
  /-- A word written to CMD that is no command (R146). -/
  | illegalCommand
  /-- ENC or DEC with IN_LEN above IN_MAX (R147). -/
  | lengthRange
  deriving DecidableEq, Repr

/-- The code of success (R141). -/
def okCode : BitVec 4 := 0#4

/-- code(K) (R141). -/
def errCode : Err → BitVec 4
  | .emptyInput => 1#4
  | .invalidDigit => 2#4
  | .numericOverflow => 3#4
  | .alphabetError => 4#4
  | .illegalCommand => 5#4
  | .lengthRange => 6#4

end Sys2Proof.Machine
end

