-- ==== Sys2Proof/Config.lean ====
section
/-! DEFINITION. What is fixed for a B58C block: the five capacities (00_scope.md R5), the two
predefined alphabets (40_alphabet.md R76, R77), and the one free value of the model. -/

namespace Sys2Proof

/-- The five capacity parameters of 00_scope.md R5. -/
structure Capacities where
  /-- Cells of IBUF. -/
  inMax : Nat
  /-- Cells of OBUF. -/
  outMax : Nat
  /-- Cells of the encode working buffer. -/
  wbMax : Nat
  /-- Words of the decode accumulator. -/
  accWords : Nat
  /-- Cells of the decode raw buffer. -/
  rawMax : Nat
  deriving DecidableEq, Repr

namespace Config

/-- IN_MAX (R5). -/
abbrev inMax : Nat := 256

/-- OUT_MAX (R5). -/
abbrev outMax : Nat := 354

/-- WB_MAX (R5). -/
abbrev wbMax : Nat := 354

/-- ACC_WORDS (R5). -/
abbrev accWords : Nat := 64

/-- RAW_MAX (R5). -/
abbrev rawMax : Nat := 256

/-- The capacities of this hardware (R5). -/
def capacities : Capacities :=
  { inMax := inMax, outMax := outMax, wbMax := wbMax, accWords := accWords, rawMax := rawMax }

/-- ROMA[0], the Bitcoin ordering, cell by cell as 40_alphabet.md R76 lists it (log entry 7). -/
def roma0 : Vector Byte 58 := #v[
  0x31, 0x32, 0x33, 0x34, 0x35, 0x36, 0x37, 0x38, 0x39, 0x41,
  0x42, 0x43, 0x44, 0x45, 0x46, 0x47, 0x48, 0x4A, 0x4B, 0x4C,
  0x4D, 0x4E, 0x50, 0x51, 0x52, 0x53, 0x54, 0x55, 0x56, 0x57,
  0x58, 0x59, 0x5A, 0x61, 0x62, 0x63, 0x64, 0x65, 0x66, 0x67,
  0x68, 0x69, 0x6A, 0x6B, 0x6D, 0x6E, 0x6F, 0x70, 0x71, 0x72,
  0x73, 0x74, 0x75, 0x76, 0x77, 0x78, 0x79, 0x7A]

/-- ROMA[1], the case groups swapped, cell by cell as 40_alphabet.md R77 lists it (log entry 7). -/
def roma1 : Vector Byte 58 := #v[
  0x31, 0x32, 0x33, 0x34, 0x35, 0x36, 0x37, 0x38, 0x39, 0x61,
  0x62, 0x63, 0x64, 0x65, 0x66, 0x67, 0x68, 0x69, 0x6A, 0x6B,
  0x6D, 0x6E, 0x6F, 0x70, 0x71, 0x72, 0x73, 0x74, 0x75, 0x76,
  0x77, 0x78, 0x79, 0x7A, 0x41, 0x42, 0x43, 0x44, 0x45, 0x46,
  0x47, 0x48, 0x4A, 0x4B, 0x4C, 0x4D, 0x4E, 0x50, 0x51, 0x52,
  0x53, 0x54, 0x55, 0x56, 0x57, 0x58, 0x59, 0x5A]

/-- ROMA[k], the predefined alphabet that `SELA k` selects (10_state.md R25). -/
def roma (k : BitVec 1) : Vector Byte 58 :=
  if k = 0#1 then roma0 else roma1

/-- FREE VALUE (log entry 1). What the buffer cell at a location of the register space holds when
nothing has written it since the latest Reset: "some value in 0..255, not fixed by the spec"
(10_state.md R34, 93_implementation_defined.md U1). The first argument is the number of the draw
(how many Resets there have been), the second the location. It has no body: a claim about it is a
claim about every content. -/
opaque freeCell : Nat → Nat → Byte

end Config

end Sys2Proof
end

