-- ==== Sys2Proof/Machine/Tables.lean ====
section
/-! DEFINITION. The decode table of an alphabet (40_alphabet.md R73). -/

namespace Sys2Proof.Machine

/-- The cell that stands for the sentinel −1 (10_state.md R26). -/
def sentinel : Byte := 0xFF#8

/-- The cell that stands for a digit value (10_state.md R26). -/
def digitCell (d : Digit) : Byte :=
  BitVec.ofNat 8 d.val

/-- BuildDect (40_alphabet.md R73): every cell is the sentinel, then T[A[d]] is assigned d for
d = 0, 1, ..., 57. -/
def buildDect (A : Vector Byte 58) : Vector Byte 128 :=
  (List.finRange 58).foldl
    (fun T d => T.setIfInBounds (A.get d).toNat (digitCell d))
    (Vector.replicate 128 sentinel)

end Sys2Proof.Machine
end

