-- ==== Sys2Proof/Machine/State.lean ====
section
/-! DEFINITION. The state of a B58C instance (10_state.md R15 to R27), with the host's side of it, and
its reset value (10_state.md R34, 70_reset_and_hazards.md R160). -/

namespace Sys2Proof.Machine

/-- The written cells of a buffer: (cell index, byte) pairs, indices strictly rising. A cell that is
not listed has not been written since the latest Reset: the memory holds no value for it, and what
the host or a command sees there is the free value `Config.freeCell` (10_state.md R34, log
entry 1). -/
abbrev Memory := List Host.Cell

/-- The state of the machine. `err` to `dect` are the block's own (10_state.md R15); CMD has no storage
(R18), and the engine's scratch is local to the commands, as R33 allows (log entry 4). `draws`,
`script` and `reads` are the model's (log entries 1, 2 and 3). -/
structure State where
  /-- STATUS.ERR, bits [3:0] of STATUS (R19). -/
  err : BitVec 4
  /-- IN_LEN (R20). -/
  inLen : BitVec 16
  /-- OUT_LEN (R21). -/
  outLen : BitVec 16
  /-- IBUF, the input buffer (R22). -/
  ibuf : Memory
  /-- OBUF, the output buffer (R23). -/
  obuf : Memory
  /-- ALPHA, the encode table (R24). -/
  alpha : Vector Byte 58
  /-- DECT, the decode table, cells in 8-bit two's complement (R26). -/
  dect : Vector Byte 128
  /-- MODEL'S OWN: how many Reset steps there have been; it selects the draw of the unwritten cells
  (R34, 93_implementation_defined.md U15). -/
  draws : Nat
  /-- MODEL'S OWN: what the host has still to do, in order (30_encoding.md R63). -/
  script : List HostStep
  /-- MODEL'S OWN: the values that reads have returned to the host, latest first
  (20_memory.md R42). -/
  reads : List Word
  deriving DecidableEq, Repr

/-- Why the model stops with a fault. -/
inductive Fault where
  /-- Raised by ENC if a nonzero carry leaves WB[0]. SAFE: the spec proves it never happens
  (41_encode.md R95) and asks for a fault here (93_implementation_defined.md U5). -/
  | encodeCarryLost
  deriving DecidableEq, Repr

/-- Why the model refuses an instruction. -/
inductive Refusal where
  /-- Raised by an arm of `exec` whose instruction has no meaning yet. SAFE. No arm is left so. -/
  | notModelled (mnemonic : String)
  deriving DecidableEq, Repr

/-- The state after Reset (10_state.md R34): control registers 0, predefined alphabet 0 active, no
buffer cell written. The host has read nothing and its script is empty: nothing in the block says
what it will do (log entries 2 and 3). -/
def State.reset : State :=
  { err := 0#4
    inLen := 0#16
    outLen := 0#16
    ibuf := []
    obuf := []
    alpha := Config.roma 0#1
    dect := buildDect (Config.roma 0#1)
    draws := 0
    script := []
    reads := [] }

end Sys2Proof.Machine
end

