-- ==== Sys2Proof/Machine/Operands.lean ====
section
/-! DEFINITION. The operand forms: a location of the register space (10_state.md R17,
20_memory.md R43), a cell, a symbol and a digit (40_alphabet.md R71), and the sequence a command
takes from IBUF. -/

namespace Sys2Proof.Machine

/-- What a location of the register space is (10_state.md R17). -/
inductive Location where
  /-- CMD, write-only. -/
  | cmd
  /-- STATUS, read-only. -/
  | status
  /-- IN_LEN, read-write. -/
  | inLen
  /-- OUT_LEN, read-only. -/
  | outLen
  /-- Cell `i` of IBUF, read-write. -/
  | ibuf (i : Nat)
  /-- Cell `i` of OBUF, read-only. -/
  | obuf (i : Nat)
  /-- Cell `d` of ALPHA, read-only. -/
  | alpha (d : Fin 58)
  /-- Cell `c` of DECT, read-only. -/
  | dect (c : Fin 128)
  /-- A reserved location: it reads 0 and ignores writes. -/
  | reserved
  deriving DecidableEq, Repr

/-- The location of IBUF[0] (R17). -/
def ibufBase : Nat := 0x100

/-- The location of OBUF[0] (R17). -/
def obufBase : Nat := 0x400

/-- The address decode, total on all 4096 indices (20_memory.md R43). -/
def locate (a : Index) : Location :=
  if a.toNat = 0x000 then .cmd
  else if a.toNat = 0x001 then .status
  else if a.toNat = 0x002 then .inLen
  else if a.toNat = 0x003 then .outLen
  else if ibufBase ≤ a.toNat ∧ a.toNat < ibufBase + Config.inMax then .ibuf (a.toNat - ibufBase)
  else if obufBase ≤ a.toNat ∧ a.toNat < obufBase + Config.outMax then .obuf (a.toNat - obufBase)
  else if h : 0x800 ≤ a.toNat ∧ a.toNat < 0x800 + 58 then .alpha ⟨a.toNat - 0x800, by omega⟩
  else if h : 0x880 ≤ a.toNat ∧ a.toNat < 0x880 + 128 then .dect ⟨a.toNat - 0x880, by omega⟩
  else .reserved

/-- The byte written last to a cell since the latest Reset, if any was. -/
def Memory.read? : Memory → Nat → Option Byte
  | [], _ => none
  | (j, b) :: m, i => if i = j then some b else Memory.read? m i

/-- IBUF[i]: the byte written last, or the free value of the latest draw (10_state.md R22, R34). -/
def State.ibufCell (s : State) (i : Nat) : Byte :=
  (Memory.read? s.ibuf i).getD (Config.freeCell s.draws (ibufBase + i))

/-- OBUF[i]: the byte written last, or the free value of the latest draw (10_state.md R23, R34). -/
def State.obufCell (s : State) (i : Nat) : Byte :=
  (Memory.read? s.obuf i).getD (Config.freeCell s.draws (obufBase + i))

/-- IBUF[0..IN_LEN), the sequence ENC and DEC work on (41_encode.md R85, 42_decode.md R100). -/
def State.input (s : State) : List Byte :=
  (List.range s.inLen.toNat).map s.ibufCell

/-- OBUF[0..OUT_LEN), the result of a command. -/
def State.output (s : State) : List Byte :=
  (List.range s.outLen.toNat).map s.obufCell

/-- IBUF[0..58), the table LDA takes (40_alphabet.md R74). -/
def State.ibufTable (s : State) : Vector Byte 58 :=
  Vector.ofFn fun d : Fin 58 => s.ibufCell d.val

/-- MemRead (20_memory.md R42, R43, R44): the 32-bit value of a location, a cell zero-extended. -/
def State.memRead (s : State) (a : Index) : Word :=
  match locate a with
  | .cmd => 0#32
  | .status => s.err.setWidth 32
  | .inLen => s.inLen.setWidth 32
  | .outLen => s.outLen.setWidth 32
  | .ibuf i => (s.ibufCell i).setWidth 32
  | .obuf i => (s.obufCell i).setWidth 32
  | .alpha d => (s.alpha.get d).setWidth 32
  | .dect c => (s.dect.get c).setWidth 32
  | .reserved => 0#32

/-- Whether a cell is ASCII: a codepoint below 128 (00_scope.md R14). -/
def isAscii (b : Byte) : Bool :=
  decide (b.toNat < 128)

/-- encode_symbol(d) (40_alphabet.md R71). -/
def encodeSymbol (alpha : Vector Byte 58) (d : Digit) : Byte :=
  alpha.get d

/-- The zero symbol, encode_symbol(0) (40_alphabet.md R71). -/
def zeroSymbol (alpha : Vector Byte 58) : Byte :=
  encodeSymbol alpha 0

/-- decode_digit(c) (40_alphabet.md R71): nothing for a non-ASCII cell, for which DECT is not indexed,
and nothing where the DECT cell is −1; otherwise the digit value in the cell. -/
def decodeDigit (dect : Vector Byte 128) (c : Byte) : Option Nat :=
  if h : c.toNat < 128 then
    let cell := dect.get ⟨c.toNat, h⟩
    if cell.toInt = -1 then none else some cell.toNat
  else none

/-- How many cells at the start of a sequence equal a given one (41_encode.md R86, 42_decode.md R102). -/
def leadingRun (z : Byte) : List Byte → Nat
  | [] => 0
  | b :: bs => if b = z then leadingRun z bs + 1 else 0

end Sys2Proof.Machine
end

