-- ==== Sys2Proof/Machine/Ops.lean ====
section
/-! DEFINITION. The named operations over the buffers and registers, and how a command ends
(60_exceptions.md R149): the block's analogue of taking an exception, for which there is nothing to
return from (R150). -/

namespace Sys2Proof.Machine

/-- Write one cell of a buffer, keeping the cells in rising order. -/
def Memory.write : Memory → Nat → Byte → Memory
  | [], i, v => [(i, v)]
  | (j, b) :: m, i, v =>
    if i < j then (i, v) :: (j, b) :: m
    else if i = j then (i, v) :: m
    else (j, b) :: Memory.write m i v

/-- Write a sequence to consecutive cells, from cell `i` on. -/
def Memory.writeList : Memory → Nat → List Byte → Memory
  | m, _, [] => m
  | m, i, b :: bs => Memory.writeList (Memory.write m i b) (i + 1) bs

/-- The canonical form of a buffer: indices strictly rising. An unlisted cell holds no byte, so no
entry can equal what an unlisted cell holds. -/
def Memory.wf : Memory → Bool
  | [] => true
  | [_] => true
  | (i, _) :: (j, b) :: m => decide (i < j) && Memory.wf ((j, b) :: m)

/-- Whether every listed cell is a cell of a buffer of `cap` cells. -/
def Memory.within (cap : Nat) (m : Memory) : Bool :=
  m.all fun c => decide (c.1 < cap)

/-- The end of a command with an error of kind `e` (60_exceptions.md R149): STATUS.ERR is its code,
OUT_LEN is 0, and nothing else changes. -/
def State.raise (s : State) (e : Err) : State :=
  { s with err := errCode e, outLen := 0#16 }

/-- The commit of a successful ENC or DEC (41_encode.md R93, 42_decode.md R109): the result goes to
OBUF[0..OUT_LEN), its length to OUT_LEN, 0 to STATUS.ERR; later cells of OBUF stay. -/
def State.commitResult (s : State) (out : List Byte) : State :=
  { s with obuf := Memory.writeList s.obuf 0 out, outLen := BitVec.ofNat 16 out.length,
           err := okCode }

/-- The commit of a successful LDA or SELA (40_alphabet.md R74, R75): the table pair is replaced as a
whole, STATUS.ERR and OUT_LEN are 0. -/
def State.commitAlphabet (s : State) (A : Vector Byte 58) : State :=
  { s with alpha := A, dect := buildDect A, err := okCode, outLen := 0#16 }

/-- A write to IN_LEN stores wdata[15:0] (10_state.md R20). -/
def State.writeInLen (s : State) (v : Word) : State :=
  { s with inLen := v.extractLsb' 0 16 }

/-- A write to an IBUF cell stores wdata[7:0] (20_memory.md R43, R44). -/
def State.writeIbuf (s : State) (i : Nat) (v : Word) : State :=
  { s with ibuf := Memory.write s.ibuf i (v.extractLsb' 0 8) }

/-- A completed read hands its value to the host and changes nothing in the block
(20_memory.md R42). -/
def State.returnRead (s : State) (v : Word) : State :=
  { s with reads := v :: s.reads }

/-- The Reset step (70_reset_and_hazards.md R160): the reset values, and a fresh draw of the buffer
contents. The host's script and what it has read are not the block's and stay. -/
def State.resetStep (s : State) : State :=
  { State.reset with draws := s.draws + 1, script := s.script, reads := s.reads }

end Sys2Proof.Machine
end

