-- ==== Sys2Proof/Machine/Alphabet.lean ====
section
/-! DEFINITION. The commands that replace the active alphabet: LDA and SELA (40_alphabet.md). -/

namespace Sys2Proof.Machine

/-- Whether two cells of a list are equal, comparing each with every later one (40_alphabet.md R74). -/
def hasDuplicate : List Byte → Bool
  | [] => false
  | b :: bs => bs.contains b || hasDuplicate bs

/-- LDA (40_alphabet.md R74): the three causes of AlphabetError in the order of the pseudocode, then
the commit. -/
def execLda (s : State) : Host.Outcome State Fault Refusal :=
  if s.inLen.toNat ≠ 58 then .next (s.raise .alphabetError)
  else if s.ibufTable.toList.any (fun b => !isAscii b) then .next (s.raise .alphabetError)
  else if hasDuplicate s.ibufTable.toList then .next (s.raise .alphabetError)
  else .next (s.commitAlphabet s.ibufTable)

/-- SELA k (40_alphabet.md R75): it always succeeds. -/
def execSela (k : BitVec 1) (s : State) : Host.Outcome State Fault Refusal :=
  .next (s.commitAlphabet (Config.roma k))

end Sys2Proof.Machine
end

