-- ==== Sys2Proof/Machine/DecCommand.lean ====
section
/-! DEFINITION. DEC, the decode command (42_decode.md R100 to R117). The names are those of R112. The
accumulator ACC[0..W) is a list of W words, the most significant first (10_state.md R29). -/

namespace Sys2Proof.Machine

/-- Step 3, the word count W for L symbols (42_decode.md R103). -/
def accSize (l : Nat) : Nat :=
  (l + 3) / 4

/-- Step 4b, the multiply-add (42_decode.md R105), on entry with j = `j1` − 1: for j down to 0,
t <- ACC[j] × 58 + c; c <- t >> 32; ACC[j] <- t[31:0]. It answers ACC and the last carry. -/
def mulAdd : Nat → Nat → List Word → List Word × Nat
  | 0, c, acc => (acc, c)
  | j + 1, c, acc =>
    let t := (acc.getD j 0#32).toNat * 58 + c
    mulAdd j (t >>> 32) (acc.set j (BitVec.ofNat 32 t))

/-- Steps 4 and 5 (a), for each symbol in string order (42_decode.md R104 to R106): the digit lookup,
the multiply-add, the carry check. -/
def decodeSymbols (dect : Vector Byte 128) : List Byte → List Word → Except Err (List Word)
  | [], acc => .ok acc
  | s :: ss, acc =>
    match decodeDigit dect s with
    | none => .error .invalidDigit
    | some d =>
      let r := mulAdd acc.length d acc
      if r.2 ≠ 0 then .error .numericOverflow else decodeSymbols dect ss r.1

/-- R, the number of bytes taken from ACC[0] (42_decode.md R106). -/
def firstWordBytes (l : Nat) : Nat :=
  if l % 4 = 0 then 4 else l % 4

/-- The low `r` bytes of a word, the most significant of them first (42_decode.md R107). -/
def packWord (r : Nat) (w : Word) : List Byte :=
  (List.range r).map fun p => (w >>> (8 * (r - 1 - p))).extractLsb' 0 8

/-- Step 6a, RAW[0..L): R bytes of ACC[0], then four of every later word (42_decode.md R107). -/
def packRaw (r : Nat) : List Word → List Byte
  | [] => []
  | w :: ws => packWord r w ++ ws.flatMap (packWord 4)

/-- Step 6b, the zero trim (42_decode.md R108): RAW[start..L) with start = max(n − Z, 0), n being the
number of leading zero bytes of RAW. -/
def trimRaw (z : Nat) (raw : List Byte) : List Byte :=
  raw.drop (leadingRun 0#8 raw - z)

/-- Steps 1 to 6: the bytes of a string, or the error DEC ends with (42_decode.md R112). -/
def decodeString (alpha : Vector Byte 58) (dect : Vector Byte 128) (str : List Byte) :
    Except Err (List Byte) :=
  let L := str.length
  if L = 0 then .error .emptyInput
  else
    let Z := leadingRun (zeroSymbol alpha) str
    match decodeSymbols dect str (List.replicate (accSize L) 0#32) with
    | .error e => .error e
    | .ok acc =>
      let R := firstWordBytes L
      if R < 4 ∧ acc.headD 0#32 >>> (8 * R) ≠ 0#32 then .error .numericOverflow
      else .ok (trimRaw Z (packRaw R acc))

/-- DEC (42_decode.md R112). -/
def execDec (s : State) : Host.Outcome State Fault Refusal :=
  if s.inLen.toNat > Config.inMax then .next (s.raise .lengthRange)
  else
    match decodeString s.alpha s.dect s.input with
    | .error e => .next (s.raise e)
    | .ok out => .next (s.commitResult out)

end Sys2Proof.Machine
end

