-- ==== Sys2Proof/Machine/EncCommand.lean ====
section
/-! DEFINITION. ENC, the encode command (41_encode.md R85 to R99). The names are those of R94. The
working buffer WB[0..S) is a list of S digits, the most significant first (R88). -/

namespace Sys2Proof.Machine

/-- Step 2, the working-buffer size S for N − Z bytes (41_encode.md R87). -/
def workSize (n : Nat) : Nat :=
  n * 138 / 100 + 1

/-- The cell step (41_encode.md R89): t is 256 × cell + carry, the new cell t mod 58, the new carry
t / 58. -/
def cellStep (cell : Digit) (carry : Nat) : Digit × Nat :=
  let t := 256 * cell.val + carry
  (⟨t % 58, Nat.mod_lt t (by decide)⟩, t / 58)

/-- The inner loop of step 3 (41_encode.md R90, R94), on entry with i = `i1` − 1: while i ≥ HIGH or
carry ≠ 0, the cell step at i, then i − 1. It answers WB and i + 1, the new HIGH. At i = −1 with a
nonzero carry the carry would be lost: no answer (R95, 93_implementation_defined.md U5). -/
def carryLoop (high : Nat) : Nat → Nat → List Digit → Option (List Digit × Nat)
  | 0, carry, wb => if carry ≠ 0 then none else some (wb, 0)
  | i + 1, carry, wb =>
    if i ≥ high ∨ carry ≠ 0 then
      let r := cellStep (wb.getD i 0) carry
      carryLoop high i r.2 (wb.set i r.1)
    else some (wb, i + 1)

/-- Step 3, the main loop over the bytes in order, with the water mark (41_encode.md R90). -/
def absorb : List Byte → Nat → List Digit → Option (List Digit)
  | [], _, wb => some wb
  | b :: bs, high, wb =>
    match carryLoop high wb.length b.toNat wb with
    | none => none
    | some (wb', high') => absorb bs high' wb'

/-- Steps 1 to 3: WB[0..S) after the last byte (41_encode.md R86 to R91). -/
def encodeDigits (bin : List Byte) : Option (List Digit) :=
  let Z := leadingRun 0#8 bin
  let S := workSize (bin.length - Z)
  absorb bin S (List.replicate S 0)

/-- Step 4, WB[G..S): the cells after the leading zero cells (41_encode.md R92). -/
def skipZeroDigits : List Digit → List Digit
  | [] => []
  | d :: ds => if d = 0 then skipZeroDigits ds else d :: ds

/-- Steps 1 to 5: the string of a byte sequence (41_encode.md R94): Z zero symbols, then the symbols of
WB[G..S). -/
def encodeString (alpha : Vector Byte 58) (bin : List Byte) : Option (List Byte) :=
  match encodeDigits bin with
  | none => none
  | some wb =>
    some (List.replicate (leadingRun 0#8 bin) (zeroSymbol alpha)
      ++ (skipZeroDigits wb).map (encodeSymbol alpha))

/-- ENC (41_encode.md R94). -/
def execEnc (s : State) : Host.Outcome State Fault Refusal :=
  if s.inLen.toNat > Config.inMax then .next (s.raise .lengthRange)
  else
    match encodeString s.alpha s.input with
    | none => .fault .encodeCarryLost
    | some out => .next (s.commitResult out)

end Sys2Proof.Machine
end

