-- ==== Sys2Proof/Machine/HostAccess.lean ====
section
/-! DEFINITION. The host's two transactions, RD and WR (20_memory.md R42 to R45), the second of which
runs a command when it writes CMD (30_encoding.md R65). -/

namespace Sys2Proof.Machine

/-- Run the command a legal word names (30_encoding.md R65). -/
def runCommand (c : Command) (s : State) : Host.Outcome State Fault Refusal :=
  match c with
  | .enc => execEnc s
  | .dec => execDec s
  | .lda => execLda s
  | .sela k => execSela k s

/-- A write of a word that is no command (60_exceptions.md R146). -/
def illegalCommand (s : State) : Host.Outcome State Fault Refusal :=
  .next (s.raise .illegalCommand)

/-- A write to CMD: DecodeCmd, then the command or the error IllegalCommand (30_encoding.md R65). -/
def writeCmd (w : Word) (s : State) : Host.Outcome State Fault Refusal :=
  match decodeCmd w with
  | .ok c => runCommand c s
  | .error _ => illegalCommand s

/-- RD addr (20_memory.md R42, R43): the value of the location goes to the host. -/
def execRd (addr : BitVec 12) (s : State) : Host.Outcome State Fault Refusal :=
  .next (s.returnRead (s.memRead addr))

/-- WR addr, wdata (20_memory.md R43, R45): a write to CMD runs the command word, a write to IN_LEN or
an IBUF cell stores the low bits, every other write has no effect. -/
def execWr (addr : BitVec 12) (wdata : BitVec 32) (s : State) : Host.Outcome State Fault Refusal :=
  match locate addr with
  | .cmd => writeCmd wdata s
  | .status => .next s
  | .inLen => .next (s.writeInLen wdata)
  | .outLen => .next s
  | .ibuf i => .next (s.writeIbuf i wdata)
  | .obuf _ => .next s
  | .alpha _ => .next s
  | .dect _ => .next s
  | .reserved => .next s

end Sys2Proof.Machine
end

