-- ==== Sys2Proof/Machine/Fetch.lean ====
section
/-! DEFINITION. What the next step does: the block fetches nothing (20_memory.md R53); the next line of
the host's script says it (30_encoding.md R63, log entry 2). -/

namespace Sys2Proof.Machine

/-- What the next line of the script asks for. -/
inductive Fetched where
  /-- The script is empty: the host does nothing. -/
  | idle
  /-- A transaction that runs this instruction. -/
  | instr (i : Instr)
  /-- A write to CMD of a word that is no command. -/
  | illegal
  /-- The Reset step. -/
  | reset
  deriving DecidableEq, Repr

/-- What a line of the script asks for. -/
def fetchLine (h : HostStep) : Fetched :=
  match decode h with
  | .ok i => .instr i
  | .error .illegalCommand => .illegal
  | .error .resetLine => .reset

/-- The next line of the script, and the state with that line taken off it. -/
def fetch (s : State) : Fetched × State :=
  match s.script with
  | [] => (.idle, s)
  | h :: rest => (fetchLine h, { s with script := rest })

/-- The state in which the host's next line is `h`. -/
def placeLine (s : State) (h : HostStep) : State :=
  { s with script := h :: s.script }

end Sys2Proof.Machine
end

