-- ==== Sys2Proof/Machine/Step.lean ====
section
/-! DEFINITION. One step: one completed transaction of the host, a Reset, or nothing
(00_scope.md R11). -/

namespace Sys2Proof.Machine

/-- One step of the machine (00_scope.md R11): the next line of the host's script. With no line left
the block is idle and holds its state (60_exceptions.md R157). -/
def step (s : State) : Host.Outcome State Fault Refusal :=
  match fetch s with
  | (.idle, t) => .next t
  | (.instr i, t) => exec i t
  | (.illegal, t) => illegalCommand t
  | (.reset, t) => .next t.resetStep

/-- The state in which the host's next line is the instruction whose bits, numbered as
spec/opcode_table.json numbers them, are `w`. -/
def State.withFetchWord (s : State) (nbits w : Nat) : State :=
  placeLine s (tableStep nbits w)

end Sys2Proof.Machine
end

