-- ==== Sys2Proof/Machine/Facade.lean ====
section
/-! DEFINITION. Host scripts (30_encoding.md R63, R64) and the Codec Facade
(43_reference_and_properties.md R126): first the scripts of its operations, whose lines have no
branches, then the operations themselves, which run those lines and act on the values read: how many
cells to get, whether to stop after LDA, what to answer. The facade adds no logic to the block. -/

namespace Sys2Proof.Machine

/-- `WR loc, value`. -/
def wrLine (a : Nat) (v : Word) : HostStep :=
  encode (.wr (BitVec.ofNat 12 a) v)

/-- `RD loc`. -/
def rdLine (a : Nat) : HostStep :=
  encode (.rd (BitVec.ofNat 12 a))

/-- The writes of PUT, from cell `i` of IBUF on. -/
def putCells : Nat → List Byte → List HostStep
  | _, [] => []
  | i, b :: bs => wrLine (ibufBase + i) (b.setWidth 32) :: putCells (i + 1) bs

/-- `PUT b0 ... b(m−1)` (30_encoding.md R64): the cells in order, then IN_LEN. IBUF has a cell for each
byte only if there are at most IN_MAX (10_state.md R17); the operations of the facade check that
before they put anything. -/
def putScript (bs : List Byte) : List HostStep :=
  putCells 0 bs ++ [wrLine 0x002 (BitVec.ofNat 32 bs.length)]

/-- `GET m` (30_encoding.md R64). -/
def getScript (m : Nat) : List HostStep :=
  (List.range m).map fun i => rdLine (obufBase + i)

/-- The reads after a command: `RD STATUS; RD OUT_LEN; GET m`, where the host takes for `m` the value
OUT_LEN returned. -/
def readScript (m : Nat) : List HostStep :=
  rdLine 0x001 :: rdLine 0x003 :: getScript m

/-- The lines of `encode(B)` (R126) for at most IN_MAX bytes: predefined alphabet 0, the bytes, ENC, the
reads. -/
def encodeScript (B : List Byte) (m : Nat) : List HostStep :=
  encode (.sela 0#1) :: (putScript B ++ encode .enc :: readScript m)

/-- The lines of `decode(s)` (R126) for at most IN_MAX cells: the same with DEC. -/
def decodeScript (str : List Byte) (m : Nat) : List HostStep :=
  encode (.sela 0#1) :: (putScript str ++ encode .dec :: readScript m)

/-- The lines that install a caller-supplied alphabet (R126): `PUT A; LDA; RD STATUS`. -/
def loadScript (A : List Byte) : List HostStep :=
  putScript A ++ [encode .lda, rdLine 0x001]

/-- The lines of `encode_with_alphabet(B, A)` after those (R126). -/
def encodeWithScript (B : List Byte) (m : Nat) : List HostStep :=
  putScript B ++ encode .enc :: readScript m

/-- The lines of `decode_with_alphabet(s, A)` after those (R126). -/
def decodeWithScript (str : List Byte) (m : Nat) : List HostStep :=
  putScript str ++ encode .dec :: readScript m

/-- Run a script from a state: one step a line, with nothing after it in the script. -/
def hostRun (lines : List HostStep) (s : State) : Host.Outcome State Fault Refusal :=
  Sys2Proof.core.run lines.length { s with script := lines }

/-- What the facade answers after a command (R126): the code of the error, or OBUF[0..OUT_LEN). -/
def facadeResult (s : State) : Except (BitVec 4) (List Byte) :=
  if s.err = okCode then .ok s.output else .error s.err

/-! ### The operations -/

/-- What an operation of the facade answers (R126): the code of an error's kind (60_exceptions.md R141),
or the result. -/
abbrev Answer := Except (BitVec 4) (List Byte)

/-- Go on from a next state; a fault or a refusal ends the operation. -/
def andThen {α : Type} (o : Host.Outcome State Fault Refusal)
    (next : State → Host.Outcome α Fault Refusal) : Host.Outcome α Fault Refusal :=
  match o with
  | .next t => next t
  | .fault r => .fault r
  | .refused r => .refused r

/-- The value the host read last. -/
def State.lastRead (s : State) : Word :=
  s.reads.headD 0#32

/-- The `m` values the host read last, in the order it read them, as cells. -/
def State.lastCells (s : State) (m : Nat) : List Byte :=
  (s.reads.take m).reverse.map fun v => v.extractLsb' 0 8

/-- The answer to what was read (R126): `Err(kind)` if STATUS is not 0, else `Ok` of the cells. -/
def answerOf (status : Word) (cells : List Byte) : Answer :=
  if status = 0#32 then .ok cells else .error (status.extractLsb' 0 4)

/-- Read STATUS, OUT_LEN and OBUF[0..OUT_LEN), as many cells as OUT_LEN said, and answer. -/
def readResult (s : State) : Host.Outcome (State × Answer) Fault Refusal :=
  andThen (hostRun [rdLine 0x001] s) fun a =>
  andThen (hostRun [rdLine 0x003] a) fun b =>
  andThen (hostRun (getScript b.lastRead.toNat) b) fun c =>
  .next (c, answerOf a.lastRead (c.lastCells b.lastRead.toNat))

/-- PUT a sequence, run a command on it, read the result. A sequence longer than IN_MAX cannot be given
to the hardware: the answer is LengthRange (R126), and nothing is put (log entry 13). -/
def convert (cmd : Instr) (bs : List Byte) (s : State) :
    Host.Outcome (State × Answer) Fault Refusal :=
  if bs.length > Config.inMax then .next (s, .error (errCode .lengthRange))
  else andThen (hostRun (putScript bs ++ [encode cmd]) s) readResult

/-- Make a predefined alphabet active by one line, RESET or `SELA k`, then convert (R126). -/
def convertAfter (line : HostStep) (cmd : Instr) (bs : List Byte) (s : State) :
    Host.Outcome (State × Answer) Fault Refusal :=
  andThen (hostRun [line] s) (convert cmd bs)

/-- `encode(B)` (R126), with `SELA 0`. -/
def facadeEncode (B : List Byte) (s : State) : Host.Outcome (State × Answer) Fault Refusal :=
  convertAfter (encode (.sela 0#1)) .enc B s

/-- `decode(s)` (R126), with `SELA 0`. -/
def facadeDecode (str : List Byte) (s : State) : Host.Outcome (State × Answer) Fault Refusal :=
  convertAfter (encode (.sela 0#1)) .dec str s

/-- Install a caller-supplied alphabet, then convert; if STATUS reads an error after LDA, answer it and
stop (R126). An alphabet that does not fit IBUF has the wrong length, which is AlphabetError
(60_exceptions.md R145), and nothing is put (log entry 13). -/
def convertWith (cmd : Instr) (bs A : List Byte) (s : State) :
    Host.Outcome (State × Answer) Fault Refusal :=
  if A.length > Config.inMax then .next (s, .error (errCode .alphabetError))
  else
    andThen (hostRun (loadScript A) s) fun t =>
      if t.lastRead = 0#32 then convert cmd bs t
      else .next (t, .error (t.lastRead.extractLsb' 0 4))

/-- `encode_with_alphabet(B, A)` (R126). -/
def facadeEncodeWith (B A : List Byte) (s : State) :
    Host.Outcome (State × Answer) Fault Refusal :=
  convertWith .enc B A s

/-- `decode_with_alphabet(s, A)` (R126). -/
def facadeDecodeWith (str A : List Byte) (s : State) :
    Host.Outcome (State × Answer) Fault Refusal :=
  convertWith .dec str A s

end Sys2Proof.Machine
end

