-- ==== Sys2Proof/Machine/Reference.lean ====
section
/-! DEFINITION. The reference converter (43_reference_and_properties.md R120 to R123): no hardware, no
state, the right-hand side of the laws; the functions on sequences of 00_scope.md R9 it is written
with; and the two other forms the spec gives of inner loops (41_encode.md R91, 42_decode.md R115).
No meaning of an instruction calls anything here. -/

namespace Sys2Proof.Machine

/-- Val256 (00_scope.md R9): a byte sequence read as a big-endian number. -/
def val256 (bin : List Byte) : Nat :=
  bin.foldl (fun v b => v * 256 + b.toNat) 0

/-- Val58 (00_scope.md R9): a digit sequence read as a number, most significant first. -/
def val58 (ds : List Digit) : Nat :=
  ds.foldl (fun v d => v * 58 + d.val) 0

/-- The number an accumulator denotes, the most significant word first (42_decode.md R105). -/
def valWords (acc : List Word) : Nat :=
  acc.foldl (fun v w => v * 2 ^ 32 + w.toNat) 0

/-- lz (00_scope.md R9): the number of leading zero bytes. -/
def lz (bin : List Byte) : Nat :=
  (bin.takeWhile (fun b => b == 0#8)).length

/-- MinBytes (00_scope.md R9): the shortest byte sequence with a given value. -/
def minBytes (v : Nat) : List Byte :=
  ((Nat.digits 256 v).map (BitVec.ofNat 8)).reverse

/-- A number below 58 as a digit. -/
def toDigit (v : Nat) : Digit :=
  ⟨v % 58, Nat.mod_lt v (by decide)⟩

/-- Digits58 (00_scope.md R9): the shortest digit sequence with a given value. -/
def digits58 (v : Nat) : List Digit :=
  ((Nat.digits 58 v).map toDigit).reverse

/-- The loop of RefEncode (43_reference_and_properties.md R122): prepend the symbol of the remainder
until the value is zero. The first argument bounds the number of divisions; the value itself is
enough. -/
def refSymbols (A : Vector Byte 58) : Nat → Nat → List Byte → List Byte
  | 0, _, out => out
  | n + 1, v, out => if v = 0 then out else refSymbols A n (v / 58) (A.get (toDigit v) :: out)

/-- RefEncode (43_reference_and_properties.md R122). -/
def refEncode (A : Vector Byte 58) (bin : List Byte) : List Byte :=
  List.replicate (lz bin) (A.get 0) ++ refSymbols A (val256 bin) (val256 bin) []

/-- The position of a symbol in the order of an alphabet, its digit value; nothing for a symbol outside
it (40_alphabet.md R71, R72). -/
def symbolDigit (A : Vector Byte 58) (c : Byte) : Option Digit :=
  (List.finRange 58).find? fun d => A.get d == c

/-- The fold of RefDecode: acc × 58 + digit over the symbols in order, or IllegalDigit
(43_reference_and_properties.md R121, R123). -/
def refFold (A : Vector Byte 58) : List Byte → Nat → Option Nat
  | [], acc => some acc
  | c :: cs, acc =>
    match symbolDigit A c with
    | none => none
    | some d => refFold A cs (acc * 58 + d.val)

/-- RefDecode (43_reference_and_properties.md R123); nothing stands for its failure IllegalDigit. -/
def refDecode (A : Vector Byte 58) (str : List Byte) : Option (List Byte) :=
  match refFold A str 0 with
  | none => none
  | some v =>
    some (List.replicate (str.takeWhile (fun c => c == A.get 0)).length 0#8 ++ minBytes v)

/-- What encoding a sequence under an alphabet gives, its length included: the string of RefEncode, or
LengthRange above IN_MAX (43_reference_and_properties.md R126, R129). -/
def encodeAnswer (A : Vector Byte 58) (bin : List Byte) : Except (BitVec 4) (List Byte) :=
  if bin.length > Config.inMax then .error (errCode .lengthRange) else .ok (refEncode A bin)

/-- What decoding a string under an alphabet gives: LengthRange above IN_MAX, EmptyInput for the empty
string, the bytes of RefDecode, or InvalidDigit (43_reference_and_properties.md R126, R129, R130). -/
def decodeAnswer (A : Vector Byte 58) (str : List Byte) : Except (BitVec 4) (List Byte) :=
  if str.length > Config.inMax then .error (errCode .lengthRange)
  else if str = [] then .error (errCode .emptyInput)
  else
    match refDecode A str with
    | none => .error (errCode .invalidDigit)
    | some out => .ok out

/-- One pass of the cell step over all cells below `i1`, without the water mark (41_encode.md R91). It
answers WB and the carry out of WB[0]. -/
def fullPass : Nat → Nat → List Digit → List Digit × Nat
  | 0, carry, wb => (wb, carry)
  | i + 1, carry, wb =>
    let r := cellStep (wb.getD i 0) carry
    fullPass i r.2 (wb.set i r.1)

/-- The main loop of ENC with a full pass for every byte (41_encode.md R91). -/
def absorbFull : List Byte → List Digit → List Digit
  | [], wb => wb
  | b :: bs, wb => absorbFull bs (fullPass wb.length b.toNat wb).1

/-- The packing as the state machine of 42_decode.md R115: `n` steps are left, the list begins with
ACC[j], `r` bytes remain in the current word. -/
def packMachine : Nat → Nat → List Word → List Byte
  | 0, _, _ => []
  | _ + 1, _, [] => []
  | n + 1, r, w :: ws =>
    (w >>> (8 * (r - 1))).extractLsb' 0 8 ::
      (if r - 1 = 0 then packMachine n 4 ws else packMachine n (r - 1) (w :: ws))

end Sys2Proof.Machine
end

