-- ==== Sys2Proof/WellFormed.lean ====
section
/-! DEFINITION. What may be ill-formed. An `Instr` may not: its operands are bit vectors of exactly the
widths of the fields that hold them (30_encoding.md R56, R66), "there are no immediates to assemble"
(R61), and every record is legal (R66), so every term of `Instr` is an instruction and there is
nothing to check. What the spec does put conditions on are the capacities (00_scope.md R6) and the
table of an alphabet (40_alphabet.md R72). -/

namespace Sys2Proof

/-- The conditions 00_scope.md R6 puts on the capacities, in its order. -/
def Capacities.wellFormed (c : Capacities) : Bool :=
  decide (58 ≤ c.inMax) && decide (c.inMax ≤ 768)
    && decide (c.inMax * 138 / 100 + 1 ≤ c.outMax) && decide (c.inMax ≤ c.outMax)
    && decide (c.outMax ≤ 1024)
    && decide (c.inMax * 138 / 100 + 1 ≤ c.wbMax)
    && decide ((c.inMax + 3) / 4 ≤ c.accWords)
    && decide (c.inMax ≤ c.rawMax)
    && decide (c.inMax ≤ 65535)

/-- The table of an alphabet: 58 cells that are ASCII and pairwise distinct
(40_alphabet.md R72 (a) and (b)). -/
def alphabetWellFormed (A : Vector Byte 58) : Bool :=
  decide (∀ d : Digit, (A.get d).toNat < 128) && decide (∀ d e : Digit, A.get d = A.get e → d = e)

end Sys2Proof
end

