-- ==== Sys2Proof/Safety.lean ====
section
/-! DEFINITION. What holds of a B58C instance between steps, in the terms claims use: the invariant of
the active alphabet (40_alphabet.md R72), the canonical form of the buffers, and the values the
registers can hold; and what it is to stop. -/

namespace Sys2Proof.Machine

/-- The invariant of a table pair (40_alphabet.md R72), clause by clause. -/
structure AlphabetInv (A : Vector Byte 58) (T : Vector Byte 128) : Prop where
  /-- (a) Every symbol is ASCII. -/
  ascii : ∀ d : Digit, (A.get d).toNat < 128
  /-- (b) The symbols are pairwise distinct. -/
  distinct : ∀ d e : Digit, A.get d = A.get e → d = e
  /-- (c) DECT inverts ALPHA. -/
  inverse : ∀ d : Digit, (T.get ⟨(A.get d).toNat, ascii d⟩).toInt = d.val
  /-- (d) DECT is −1 for every codepoint that is no symbol. -/
  elsewhere : ∀ c : Fin 128, (∀ d : Digit, (A.get d).toNat ≠ c.val) → (T.get c).toInt = -1

/-- The invariant of the whole state. -/
structure Inv (s : State) : Prop where
  /-- The active alphabet is one (40_alphabet.md R72). -/
  alphabet : AlphabetInv s.alpha s.dect
  /-- IBUF is in canonical form. -/
  ibufCanonical : Memory.wf s.ibuf = true
  /-- Only cells of IBUF are written (10_state.md R22). -/
  ibufWithin : Memory.within Config.inMax s.ibuf = true
  /-- OBUF is in canonical form. -/
  obufCanonical : Memory.wf s.obuf = true
  /-- Only cells of OBUF are written (10_state.md R23). -/
  obufWithin : Memory.within Config.outMax s.obuf = true
  /-- STATUS.ERR holds a code that some command produces (10_state.md R19, 60_exceptions.md R144). -/
  errLegal : s.err.toNat ≤ 6 ∧ s.err ≠ errCode .numericOverflow
  /-- OUT_LEN is at most OUT_MAX (10_state.md R21). -/
  outLenBounded : s.outLen.toNat ≤ Config.outMax

/-- The indices the map leaves reserved (10_state.md R17). -/
abbrev Reserved (n : Nat) : Prop :=
  (4 ≤ n ∧ n < 0x100) ∨ (0x200 ≤ n ∧ n < 0x400) ∨ (0x562 ≤ n ∧ n < 0x800) ∨
    (0x83A ≤ n ∧ n < 0x880) ∨ 0x900 ≤ n

/-- The machine goes on: the step ends in a next state, neither a fault nor a refusal
(00_scope.md R12). -/
def Completes (o : Host.Outcome State Fault Refusal) : Prop :=
  ∃ t, o = .next t

end Sys2Proof.Machine
end

