-- ==== Sys2Proof/Certificates/Slice0/Obligations.lean ====
section
/-! DEFINITION. The statements about B58C, from the spec's numbered rules. A location is named by its
index: STATUS is 1, IN_LEN 2, OUT_LEN 3, IBUF[i] 0x100 + i, OBUF[i] 0x400 + i, ALPHA[d] 0x800 + d,
DECT[c] 0x880 + c (10_state.md R17). No statement rests on the value of a free cell or of the counter
`draws` (log entry 1). `[derived]` after a rule says that the spec marks the rule so itself: the
statement is then an inference of the spec, not a rule it decides. -/

open Sys2Proof Sys2Proof.Machine

/-! ### Encodings -/

/-- 30_encoding.md R62: of all 32-bit words exactly five are legal, and writing any other to CMD sets
STATUS.ERR to 5 and OUT_LEN to 0 and does nothing else. -/
def Obligations.ExactlyFiveCommandWordsAreLegal : Prop :=
  (∀ w : Word, decodeCmd w = .ok .enc ↔ w = 0x00000001#32) ∧
  (∀ w : Word, decodeCmd w = .ok .dec ↔ w = 0x00000002#32) ∧
  (∀ w : Word, decodeCmd w = .ok .lda ↔ w = 0x00000003#32) ∧
  (∀ w : Word, decodeCmd w = .ok (.sela 0#1) ↔ w = 0x00000004#32) ∧
  (∀ w : Word, decodeCmd w = .ok (.sela 1#1) ↔ w = 0x00000104#32) ∧
  (∀ (w : Word) (s : State), w ≠ 0x00000001#32 → w ≠ 0x00000002#32 → w ≠ 0x00000003#32 →
    w ≠ 0x00000004#32 → w ≠ 0x00000104#32 →
    exec (.wr 0x000#12 w) s = .next { s with err := 5#4, outLen := 0#16 })

/-- 30_encoding.md R57 to R60, R66: decoding what was encoded gives the instruction back, for every
instruction and every operand; and encoding what was decoded gives the word or record back, but for
the bits [31:0] of a read, which are ignored and written as 0. -/
def Obligations.DecodeAndEncodeAgree : Prop :=
  (∀ i : Instr, decode (encode i) = .ok i) ∧
  (∀ (w : Word) (c : Command), decodeCmd w = .ok c → encodeCmd c = w) ∧
  (∀ r : BitVec 45, encode (decodeRecord r) =
    .transaction (if r.extractLsb' 44 1 = 1#1 then r else r.extractLsb' 32 13 ++ 0#32))

/-- The command words of 30_encoding.md R57 to R60 and records that 30_encoding.md R66 and
95_test_vectors.md P1 to P3 write out, decoded. -/
def Obligations.WordsOfTheSpecDecode : Prop :=
  decodeTableWord 32 0x00000001 = some .enc ∧
  decodeTableWord 32 0x00000002 = some .dec ∧
  decodeTableWord 32 0x00000003 = some .lda ∧
  decodeTableWord 32 0x00000004 = some (.sela 0#1) ∧
  decodeTableWord 32 0x00000104 = some (.sela 1#1) ∧
  decodeTableWord 32 0x00000101 = none ∧
  decodeTableWord 48 0x000100000000 = some (.rd 0x001#12) ∧
  decodeTableWord 48 0x08FA00000000 = some (.rd 0x8FA#12) ∧
  decodeTableWord 48 0x110200000009 = some (.wr 0x102#12 0x00000009#32) ∧
  decodeTableWord 48 0x100080000001 = some (.wr 0x000#12 0x80000001#32)

/-! ### Steps -/

/-- 00_scope.md R11, 30_encoding.md R63: when the host's next line decodes to an instruction, a step
is that instruction, the line being taken off the script. -/
def Obligations.StepRunsTheDecodedInstruction : Prop :=
  ∀ (s : State) (h : HostStep) (rest : List HostStep) (i : Instr),
    s.script = h :: rest → decode h = .ok i → step s = exec i { s with script := rest }

/-- A word or record placed with `withFetchWord` is what the very next step runs. -/
def Obligations.PlacedWordRunsNext : Prop :=
  ∀ (s : State) (nbits w : Nat) (i : Instr),
    decodeTableWord nbits w = some i → step (s.withFetchWord nbits w) = exec i s

/-- The lines that are no instruction: an illegal command word ends with IllegalCommand
(60_exceptions.md R146), and with no line left the block holds its state (60_exceptions.md R157; that
a step is then possible is the model's choice, log entry 2). -/
def Obligations.StepOnIllegalWordAndOnEmptyScript : Prop :=
  (∀ (s : State) (w : Word) (rest : List HostStep) (e : DecodeError),
    s.script = .command w :: rest → decodeCmd w = .error e →
    step s = .next { s with script := rest, err := 5#4, outLen := 0#16 }) ∧
  (∀ s : State, s.script = [] → step s = .next s)

/-- 70_reset_and_hazards.md R160: the Reset step is possible in every state, its result does not depend
on that state but for the draw of the buffer contents, and no buffer cell holds a written byte. That
the alphabet it makes active satisfies its invariant is 40_alphabet.md R72 [derived] and
R78 [derived], and rests on the listed contents of ROMA[0] (log entry 7, PRESUMED). What the host has
still to do and has read is the model's (log entries 2 and 3). -/
def Obligations.ResetStepGivesTheResetState : Prop :=
  ∀ (s : State) (rest : List HostStep), s.script = .reset :: rest →
    ∃ n t, step s = .next t ∧
      t = { State.reset with draws := n, script := rest, reads := s.reads } ∧
      t.err = 0#4 ∧ t.inLen = 0#16 ∧ t.outLen = 0#16 ∧
      t.alpha = Config.roma 0#1 ∧ AlphabetInv t.alpha t.dect ∧
      (∀ i, Memory.read? t.ibuf i = none) ∧ (∀ i, Memory.read? t.obuf i = none)

/-- 70_reset_and_hazards.md R161 [derived]: `SELA 0; WR IN_LEN, 0` brings the control state to its
reset values from any state. -/
def Obligations.SelaZeroReachesTheResetControlState : Prop :=
  ∀ s : State, ∃ t, hostRun [encode (.sela 0#1), encode (.wr 0x002#12 0#32)] s = .next t ∧
    t.err = State.reset.err ∧ t.inLen = State.reset.inLen ∧ t.outLen = State.reset.outLen ∧
    t.alpha = State.reset.alpha ∧ t.dect = State.reset.dect

/-- 00_scope.md R12: "There is no trap, no stuck state and no undefined outcome": every instruction and
every step, in every state, has a next state. In particular the fault of ENC is dead
(41_encode.md R95 [derived]). -/
def Obligations.EveryStepHasANextState : Prop :=
  (∀ (i : Instr) (s : State), Completes (exec i s)) ∧ (∀ s : State, Completes (step s))

/-! ### Host access -/

/-- 20_memory.md R43: the read result of every location, and the effect of a write to every location;
the reserved ones are `Reserved` (10_state.md R17). -/
def Obligations.AddressDecode : Prop :=
  (∀ (a : Index) (s : State), ∃ v : Word,
    exec (.rd a) s = .next { s with reads := v :: s.reads } ∧
    (a.toNat = 0x000 → v = 0#32) ∧
    (a.toNat = 0x001 → v = s.err.setWidth 32) ∧
    (a.toNat = 0x002 → v = s.inLen.setWidth 32) ∧
    (a.toNat = 0x003 → v = s.outLen.setWidth 32) ∧
    (∀ i, i < 256 → a.toNat = 0x100 + i → v = (s.ibufCell i).setWidth 32) ∧
    (∀ i, i < 354 → a.toNat = 0x400 + i → v = (s.obufCell i).setWidth 32) ∧
    (∀ d : Fin 58, a.toNat = 0x800 + d.val → v = (s.alpha.get d).setWidth 32) ∧
    (∀ c : Fin 128, a.toNat = 0x880 + c.val → v = (s.dect.get c).setWidth 32) ∧
    (Reserved a.toNat → v = 0#32)) ∧
  (∀ (a : Index) (v : Word) (s : State),
    (a.toNat = 0x000 →
      (∀ c, decodeCmd v = .ok c → exec (.wr a v) s = exec c.toInstr s) ∧
      (∀ e, decodeCmd v = .error e →
        exec (.wr a v) s = .next { s with err := 5#4, outLen := 0#16 })) ∧
    (a.toNat = 0x002 → exec (.wr a v) s = .next { s with inLen := v.extractLsb' 0 16 }) ∧
    (∀ i, i < 256 → a.toNat = 0x100 + i → ∃ t, exec (.wr a v) s = .next t ∧
      t = { s with ibuf := t.ibuf } ∧ t.ibufCell i = v.extractLsb' 0 8 ∧
      ∀ k, k ≠ i → t.ibufCell k = s.ibufCell k) ∧
    (a.toNat = 0x001 ∨ a.toNat = 0x003 ∨ (0x400 ≤ a.toNat ∧ a.toNat < 0x400 + 354) ∨
      (0x800 ≤ a.toNat ∧ a.toNat < 0x800 + 58) ∨ (0x880 ≤ a.toNat ∧ a.toNat < 0x880 + 128) ∨
      Reserved a.toNat → exec (.wr a v) s = .next s))

/-- 20_memory.md R45: a read of CMD or of a reserved location returns 0; a write to STATUS, OUT_LEN, an
OBUF, ALPHA or DECT location or a reserved location is ignored and has no effect at all. -/
def Obligations.IgnoredWritesAndZeroReads : Prop :=
  (∀ (a : Index) (s : State), a.toNat = 0x000 ∨ Reserved a.toNat →
    exec (.rd a) s = .next { s with reads := 0#32 :: s.reads }) ∧
  (∀ (a : Index) (v : Word) (s : State),
    a.toNat = 0x001 ∨ a.toNat = 0x003 ∨ (0x400 ≤ a.toNat ∧ a.toNat < 0x562) ∨
      (0x800 ≤ a.toNat ∧ a.toNat < 0x83A) ∨ (0x880 ≤ a.toNat ∧ a.toNat < 0x900) ∨
      Reserved a.toNat → exec (.wr a v) s = .next s)

/-- Frame of RD (20_memory.md R42, R50 [derived]): a read changes nothing the host can read, nothing
in the block and nothing of the script; it only adds its value to what the host has read. -/
def Obligations.ReadFrame : Prop :=
  ∀ (a : Index) (s t : State), exec (.rd a) s = .next t →
    t.reads = s.memRead a :: s.reads ∧ t = { s with reads := t.reads } ∧
    ∀ b : Index, t.memRead b = s.memRead b

/-- Frame of WR to a location other than CMD (20_memory.md R43, R44, R46): it completes, every other
location reads as before, IN_LEN and an IBUF cell read back the low bits written, any other location
reads as before, and every register, table and buffer is unchanged but IN_LEN for IN_LEN and IBUF for
an IBUF cell. -/
def Obligations.WriteFrame : Prop :=
  ∀ (a : Index) (v : Word) (s : State), a.toNat ≠ 0x000 →
    ∃ t, exec (.wr a v) s = .next t ∧
      (∀ b : Index, b ≠ a → t.memRead b = s.memRead b) ∧
      (a.toNat = 0x002 → t.memRead a = (v.extractLsb' 0 16).setWidth 32) ∧
      (0x100 ≤ a.toNat ∧ a.toNat < 0x200 → t.memRead a = (v.extractLsb' 0 8).setWidth 32) ∧
      (a.toNat ≠ 0x002 → ¬(0x100 ≤ a.toNat ∧ a.toNat < 0x200) → t.memRead a = s.memRead a) ∧
      (a.toNat ≠ 0x002 → t.inLen = s.inLen) ∧
      (¬(0x100 ≤ a.toNat ∧ a.toNat < 0x200) → t.ibuf = s.ibuf) ∧
      t.err = s.err ∧ t.outLen = s.outLen ∧ t.obuf = s.obuf ∧ t.alpha = s.alpha ∧
      t.dect = s.dect ∧ t.draws = s.draws ∧ t.script = s.script ∧ t.reads = s.reads

/-! ### The alphabet -/

/-- 40_alphabet.md R75: SELA k always succeeds, makes ROMA[k] and its decode table active, sets
STATUS.ERR and OUT_LEN to 0, and changes nothing else; SELA 0 leaves the reset state as it is. -/
def Obligations.SelaMakesAPredefinedAlphabetActive : Prop :=
  (∀ (k : BitVec 1) (s : State), ∃ t, exec (.sela k) s = .next t ∧
    t = { s with alpha := t.alpha, dect := t.dect, err := 0#4, outLen := 0#16 } ∧
    t.alpha = (if k = 0#1 then Config.roma0 else Config.roma1) ∧
    t.dect = buildDect t.alpha) ∧
  exec (.sela 0#1) State.reset = .next State.reset

/-- 40_alphabet.md R74: LDA succeeds exactly if IN_LEN is 58 and IBUF[0..58) are ASCII and pairwise
distinct; then they become ALPHA, DECT is their inverse, STATUS.ERR and OUT_LEN are 0 and nothing else
changes; otherwise STATUS.ERR is 4, OUT_LEN 0 and nothing else changes. -/
def Obligations.LdaLoadsExactlyTheWellFormedAlphabets : Prop :=
  ∀ s : State,
    (s.inLen.toNat = 58 → (∀ d, d < 58 → (s.ibufCell d).toNat < 128) →
      (∀ d e, d < e → e < 58 → s.ibufCell d ≠ s.ibufCell e) →
      ∃ t, exec .lda s = .next t ∧
        t = { s with alpha := t.alpha, dect := t.dect, err := 0#4, outLen := 0#16 } ∧
        (∀ d : Fin 58, t.alpha.get d = s.ibufCell d.val) ∧
        t.dect = buildDect t.alpha) ∧
    (s.inLen.toNat ≠ 58 ∨ (∃ d, d < 58 ∧ 128 ≤ (s.ibufCell d).toNat) ∨
      (∃ d e, d < e ∧ e < 58 ∧ s.ibufCell d = s.ibufCell e) →
      exec .lda s = .next { s with err := 4#4, outLen := 0#16 })

/-- Frame of LDA and SELA (10_state.md R35 [derived], 60_exceptions.md R149): they change STATUS,
OUT_LEN, ALPHA and DECT at most; IBUF, OBUF and IN_LEN are unchanged, and every other location reads
as before. -/
def Obligations.AlphabetCommandsFrame : Prop :=
  ∀ (i : Instr) (s t : State), i = .lda ∨ (∃ k, i = .sela k) → exec i s = .next t →
    t.inLen = s.inLen ∧ t.ibuf = s.ibuf ∧ t.obuf = s.obuf ∧ t.draws = s.draws ∧
    t.script = s.script ∧ t.reads = s.reads ∧ t.outLen = 0#16 ∧
    ∀ a : Index, a.toNat ≠ 0x001 → a.toNat ≠ 0x003 →
      ¬(0x800 ≤ a.toNat ∧ a.toNat < 0x800 + 58) → ¬(0x880 ≤ a.toNat ∧ a.toNat < 0x880 + 128) →
      t.memRead a = s.memRead a

/-- 40_alphabet.md R73: in the decode table of a well-formed alphabet the cell of each symbol is its
digit value, and every other cell is 0xFF. -/
def Obligations.BuildDectInvertsTheAlphabet : Prop :=
  ∀ (A : Vector Byte 58) (c : Fin 128), alphabetWellFormed A = true →
    (∀ d : Digit, (A.get d).toNat = c.val → (buildDect A).get c = BitVec.ofNat 8 d.val) ∧
    ((∀ d : Digit, (A.get d).toNat ≠ c.val) → (buildDect A).get c = 0xFF#8)

/-- 40_alphabet.md R71 [derived], R72 [derived]: under the invariant of the active alphabet the two
lookups are inverse to each other, and exactly the cells that are no symbol have no digit. -/
def Obligations.SymbolAndDigitLookupsAreInverse : Prop :=
  ∀ (A : Vector Byte 58) (T : Vector Byte 128), AlphabetInv A T →
    (∀ d : Digit, decodeDigit T (encodeSymbol A d) = some d.val) ∧
    (∀ (c : Byte) (n : Nat), decodeDigit T c = some n →
      ∃ d : Digit, d.val = n ∧ encodeSymbol A d = c) ∧
    (∀ c : Byte, decodeDigit T c = none ↔ ∀ d : Digit, A.get d ≠ c)

/-- 40_alphabet.md R78 [derived] (1) to (4): both predefined alphabets are well-formed, '0' is in
neither, the Bitcoin ordering begins with '1', and the second is the first with its two letter groups
exchanged. -/
def Obligations.PredefinedAlphabetsAreWellFormed : Prop :=
  (∀ k : BitVec 1, alphabetWellFormed (Config.roma k) = true ∧
    ∀ d : Digit, (Config.roma k).get d ≠ 0x30#8) ∧
  Config.roma0.get 0 = 0x31#8 ∧
  (∀ d : Digit, d.val < 9 → Config.roma1.get d = Config.roma0.get d) ∧
  (∀ j : Fin 25, Config.roma1.get ⟨9 + j.val, by omega⟩ = Config.roma0.get ⟨33 + j.val, by omega⟩) ∧
  (∀ j : Fin 24, Config.roma1.get ⟨34 + j.val, by omega⟩ = Config.roma0.get ⟨9 + j.val, by omega⟩)

/-- 40_alphabet.md R70, R80 [derived]: a step changes the active alphabet only if it is Reset, SELA or
LDA, the last two also as a WR to CMD. -/
def Obligations.OnlyResetSelaAndLdaChangeTheAlphabet : Prop :=
  ∀ s t : State, step s = .next t → t.alpha ≠ s.alpha ∨ t.dect ≠ s.dect →
    ∃ h rest, s.script = h :: rest ∧
      (h = .reset ∨ decode h = .ok .lda ∨ (∃ k, decode h = .ok (.sela k)) ∨
        ∃ a w, decode h = .ok (.wr a w) ∧ a.toNat = 0x000 ∧
          (decodeCmd w = .ok .lda ∨ ∃ k, decodeCmd w = .ok (.sela k)))

/-! ### ENC -/

/-- 41_encode.md R89: the cell step and its bounds: the carry injected is an input byte, at most 255, and
from a carry of at most 255 the step gives t of at most 14847, a digit, and a carry of at most 255. -/
def Obligations.CellStepStaysInItsBounds : Prop :=
  (∀ b : Byte, b.toNat ≤ 255) ∧
  ∀ (cell : Digit) (carry : Nat), carry ≤ 255 →
    256 * cell.val + carry ≤ 14847 ∧
    (cellStep cell carry).1.val = (256 * cell.val + carry) % 58 ∧
    (cellStep cell carry).2 = (256 * cell.val + carry) / 58 ∧
    (cellStep cell carry).1.val ≤ 57 ∧ (cellStep cell carry).2 ≤ 255

/-- 41_encode.md R91 [derived], R95 [derived]: the water mark is invisible: the loop with HIGH gives
the working buffer of the loop with a full pass for every byte, no carry is lost, and the number in
the working buffer is the number the bytes denote. -/
def Obligations.WaterMarkIsInvisible : Prop :=
  ∀ bin : List Byte,
    let S := workSize (bin.length - leadingRun 0#8 bin)
    encodeDigits bin = some (absorbFull bin (List.replicate S 0)) ∧
    (absorbFull bin (List.replicate S 0)).length = S ∧
    val58 (absorbFull bin (List.replicate S 0)) = val256 bin

/-- 43_reference_and_properties.md R129 [derived], 41_encode.md R96 [derived]: for every input of at
most IN_MAX bytes, ENC succeeds and leaves in OBUF[0..OUT_LEN) what the reference encoder gives. -/
def Obligations.EncodeEqualsTheReferenceEncoder : Prop :=
  ∀ s : State, s.inLen.toNat ≤ 256 →
    ∃ t, exec .enc s = .next t ∧ t.err = 0#4 ∧
      t.outLen.toNat = (refEncode s.alpha s.input).length ∧
      t.output = refEncode s.alpha s.input

/-- 41_encode.md R98 [derived] and the lower bound of 95_test_vectors.md V186: the length of what ENC
gives. -/
def Obligations.EncodeOutputLengthIsBounded : Prop :=
  ∀ s t : State, s.inLen.toNat ≤ 256 → exec .enc s = .next t →
    s.inLen.toNat ≤ t.outLen.toNat ∧ t.outLen.toNat ≤ s.inLen.toNat * 138 / 100 + 1 ∧
    t.outLen.toNat ≤ 354

/-- 41_encode.md R97 [derived], 43_reference_and_properties.md R130 [derived], R132 [derived]: N zero
bytes encode to exactly N zero symbols; N = 0 is a success with OBUF untouched. -/
def Obligations.EncodeOfZeroBytesIsZeroSymbols : Prop :=
  (∀ s : State, s.inLen = 0#16 → exec .enc s = .next { s with err := 0#4, outLen := 0#16 }) ∧
  ∀ s : State, s.inLen.toNat ≤ 256 → (∀ k, k < s.inLen.toNat → s.ibufCell k = 0#8) →
    ∃ t, exec .enc s = .next t ∧ t.err = 0#4 ∧ t.outLen = s.inLen ∧
      ∀ k, k < s.inLen.toNat → t.obufCell k = s.alpha.get 0

/-- 43_reference_and_properties.md R128 [derived]: K leading zero bytes give exactly K leading zero
symbols, and what follows them is the string of the rest. -/
def Obligations.LeadingZeroBytesArePreserved : Prop :=
  ∀ (s : State) (K : Nat) (b : Byte) (B : List Byte), AlphabetInv s.alpha s.dect →
    s.inLen.toNat ≤ 256 → s.input = List.replicate K 0#8 ++ b :: B → b ≠ 0#8 →
    ∃ t c cs, exec .enc s = .next t ∧ t.err = 0#4 ∧
      t.output = List.replicate K (s.alpha.get 0) ++ c :: cs ∧ c ≠ s.alpha.get 0 ∧
      refEncode s.alpha (b :: B) = c :: cs

/-- 43_reference_and_properties.md R137 [derived]: under two alphabets the same bytes give strings of
the same length, symbol by symbol of the same digits. -/
def Obligations.EncodingUnderTwoAlphabetsHasTheSameDigits : Prop :=
  ∀ s s' t t' : State, s.inLen.toNat ≤ 256 → s'.input = s.input →
    exec .enc s = .next t → exec .enc s' = .next t' →
    ∃ ds : List Digit, t.output = ds.map s.alpha.get ∧ t'.output = ds.map s'.alpha.get

/-! ### DEC -/

/-- 43_reference_and_properties.md R129 [derived], 42_decode.md R113 [derived]: for every string of 1
to IN_MAX symbols, DEC gives what the reference decoder gives, and InvalidDigit exactly where that
fails. -/
def Obligations.DecodeEqualsTheReferenceDecoder : Prop :=
  ∀ s : State, AlphabetInv s.alpha s.dect → 1 ≤ s.inLen.toNat → s.inLen.toNat ≤ 256 →
    match refDecode s.alpha s.input with
    | some out => ∃ t, exec .dec s = .next t ∧ t.err = 0#4 ∧ t.outLen.toNat = out.length ∧
        t.output = out
    | none => exec .dec s = .next { s with err := 2#4, outLen := 0#16 }

/-- 42_decode.md R104, R116, 60_exceptions.md R143: within the length limits, DEC ends with InvalidDigit
exactly if some cell of its input is non-ASCII or has the sentinel in DECT, and succeeds otherwise;
on the error OUT_LEN is 0 and nothing else changes. -/
def Obligations.DecodeRejectsExactlyForeignCells : Prop :=
  ∀ s : State, AlphabetInv s.alpha s.dect → 1 ≤ s.inLen.toNat → s.inLen.toNat ≤ 256 →
    ((∃ k, k < s.inLen.toNat ∧
        ∀ h : (s.ibufCell k).toNat < 128, s.dect.get ⟨(s.ibufCell k).toNat, h⟩ = 0xFF#8) →
      exec .dec s = .next { s with err := 2#4, outLen := 0#16 }) ∧
    ((∀ k, k < s.inLen.toNat →
        ∃ h : (s.ibufCell k).toNat < 128, s.dect.get ⟨(s.ibufCell k).toNat, h⟩ ≠ 0xFF#8) →
      ∃ t, exec .dec s = .next t ∧ t.err = 0#4 ∧ t.outLen.toNat ≤ s.inLen.toNat)

/-- 42_decode.md R101: with IN_LEN = 0, DEC raises EmptyInput, before any symbol is read: whatever IBUF and
the tables hold. -/
def Obligations.EmptyStringIsEmptyInput : Prop :=
  ∀ s : State, s.inLen = 0#16 → exec .dec s = .next { s with err := 1#4, outLen := 0#16 }

/-- 42_decode.md R105: one multiply-add maps the accumulator's number v to 58 × v + d, modulo 2^(32 W), the
last carry being the part that does not fit; t never exceeds 58 × 2^32 − 1, nor a carry 57. -/
def Obligations.MultiplyAddIsExact : Prop :=
  (∀ (w : Word) (c : Nat), c ≤ 57 →
    w.toNat * 58 + c ≤ 58 * 2 ^ 32 - 1 ∧ w.toNat * 58 + c < 2 ^ 38 ∧
    (w.toNat * 58 + c) >>> 32 ≤ 57) ∧
  ∀ (acc : List Word) (d : Nat), d ≤ 57 →
    (mulAdd acc.length d acc).1.length = acc.length ∧
    (mulAdd acc.length d acc).2 ≤ 57 ∧
    valWords (mulAdd acc.length d acc).1 + (mulAdd acc.length d acc).2 * 2 ^ (32 * acc.length) =
      58 * valWords acc + d ∧
    valWords (mulAdd acc.length d acc).1 = (58 * valWords acc + d) % 2 ^ (32 * acc.length)

/-- 60_exceptions.md R147: ENC and DEC with IN_LEN above IN_MAX end with LengthRange, OUT_LEN 0 and
nothing else; LDA ends with AlphabetError there, and SELA does not read IN_LEN. -/
def Obligations.LengthAboveTheCapacityIsRefused : Prop :=
  ∀ s : State, 256 < s.inLen.toNat →
    exec .enc s = .next { s with err := 6#4, outLen := 0#16 } ∧
    exec .dec s = .next { s with err := 6#4, outLen := 0#16 } ∧
    exec .lda s = .next { s with err := 4#4, outLen := 0#16 } ∧
    ∀ (k : BitVec 1) (n : BitVec 16), ∃ t, exec (.sela k) s = .next t ∧ t.err = 0#4 ∧
      exec (.sela k) { s with inLen := n } = .next { t with inLen := n }

/-- 42_decode.md R110 [derived], R116: under the invariant of the alphabet the results of DEC are 0,
1, 2 and 6; NumericOverflow never happens. -/
def Obligations.DecodeNeverOverflows : Prop :=
  ∀ s t : State, AlphabetInv s.alpha s.dect → exec .dec s = .next t →
    t.err = 0#4 ∨ t.err = 1#4 ∨ t.err = 2#4 ∨ t.err = 6#4

/-- 42_decode.md R107, R111 [derived]: the raw buffer has exactly L bytes and at least as many leading
zero bytes as the string has leading zero symbols, so the clamp of the zero trim never engages. -/
def Obligations.ZeroTrimIsNeverClamped : Prop :=
  ∀ (A : Vector Byte 58) (T : Vector Byte 128) (str : List Byte) (acc : List Word),
    AlphabetInv A T → str ≠ [] →
    decodeSymbols T str (List.replicate (accSize str.length) 0#32) = .ok acc →
    (packRaw (firstWordBytes str.length) acc).length = str.length ∧
    leadingRun (zeroSymbol A) str ≤ leadingRun 0#8 (packRaw (firstWordBytes str.length) acc)

/-- 42_decode.md R107, R115 [derived]: the packing is the state machine over the bytes remaining in a
word. -/
def Obligations.PackingIsTheByteStateMachine : Prop :=
  ∀ (l : Nat) (acc : List Word), 0 < l → acc.length = accSize l →
    packRaw (firstWordBytes l) acc = packMachine l (firstWordBytes l) acc

/-- 42_decode.md R106, R107: the packing writes exactly L cells, and where the leading bits of ACC[0] are
zero, as check (b) asks, the bytes denote the accumulator's number. -/
def Obligations.PackingKeepsTheNumber : Prop :=
  ∀ (l : Nat) (acc : List Word), 0 < l → acc.length = accSize l →
    (packRaw (firstWordBytes l) acc).length = l ∧
    (firstWordBytes l = 4 ∨ acc.headD 0#32 >>> (8 * firstWordBytes l) = 0#32 →
      val256 (packRaw (firstWordBytes l) acc) = valWords acc)

/-- 42_decode.md R114 [derived], 43_reference_and_properties.md R132 [derived]: L zero symbols decode
to L zero bytes. -/
def Obligations.DecodeOfZeroSymbolsIsZeroBytes : Prop :=
  ∀ s : State, AlphabetInv s.alpha s.dect → 1 ≤ s.inLen.toNat → s.inLen.toNat ≤ 256 →
    (∀ k, k < s.inLen.toNat → s.ibufCell k = s.alpha.get 0) →
    ∃ t, exec .dec s = .next t ∧ t.err = 0#4 ∧ t.outLen = s.inLen ∧
      ∀ k, k < s.inLen.toNat → t.obufCell k = 0#8

/-! ### ENC and DEC together -/

/-- Frame of ENC and DEC (10_state.md R35 [derived], 43_reference_and_properties.md R136 [derived]):
they change STATUS, OUT_LEN and OBUF[0..OUT_LEN) at most, OUT_LEN being the new one; IN_LEN, IBUF,
ALPHA and DECT are unchanged and every other location reads as before. -/
def Obligations.EncodeAndDecodeFrame : Prop :=
  ∀ (i : Instr) (s t : State), i = .enc ∨ i = .dec → exec i s = .next t →
    t.inLen = s.inLen ∧ t.ibuf = s.ibuf ∧ t.alpha = s.alpha ∧ t.dect = s.dect ∧
    t.draws = s.draws ∧ t.script = s.script ∧ t.reads = s.reads ∧
    (∀ k, t.outLen.toNat ≤ k → t.obufCell k = s.obufCell k) ∧
    ∀ a : Index, a.toNat ≠ 0x001 → a.toNat ≠ 0x003 →
      ¬(0x400 ≤ a.toNat ∧ a.toNat < 0x400 + t.outLen.toNat) → t.memRead a = s.memRead a

/-- 60_exceptions.md R140, R149: a command that ends in an error, started by its own line or by a write
to CMD, has changed nothing but STATUS.ERR and OUT_LEN, and OUT_LEN is 0. -/
def Obligations.ErrorsLeaveEverythingElseUnchanged : Prop :=
  ∀ (i : Instr) (s t : State),
    i = .enc ∨ i = .dec ∨ i = .lda ∨ (∃ k, i = .sela k) ∨ (∃ w, i = .wr 0x000#12 w) →
    exec i s = .next t → t.err ≠ 0#4 → t = { s with err := t.err, outLen := 0#16 }

/-- 10_state.md R33, 43_reference_and_properties.md R136 [derived]: the result of ENC or DEC is a
function of IN_LEN, IBUF[0..IN_LEN), ALPHA and DECT only. -/
def Obligations.ResultDependsOnlyOnTheInputs : Prop :=
  ∀ (i : Instr) (s s' t t' : State), i = .enc ∨ i = .dec →
    s'.inLen = s.inLen → (∀ k, k < s.inLen.toNat → s'.ibufCell k = s.ibufCell k) →
    s'.alpha = s.alpha → s'.dect = s.dect →
    exec i s = .next t → exec i s' = .next t' →
    t'.err = t.err ∧ t'.outLen = t.outLen ∧ t'.output = t.output

/-- 20_memory.md R50 [derived], 43_reference_and_properties.md R136 [derived]: a command run again at
once gives the same STATUS, OUT_LEN, OBUF[0..OUT_LEN) and tables. -/
def Obligations.RepeatedCommandsGiveTheSameResult : Prop :=
  ∀ (i : Instr) (s t u : State), i = .enc ∨ i = .dec ∨ i = .lda ∨ (∃ k, i = .sela k) →
    exec i s = .next t → exec i t = .next u →
    u.err = t.err ∧ u.outLen = t.outLen ∧ u.output = t.output ∧ u.alpha = t.alpha ∧
    u.dect = t.dect

/-- 43_reference_and_properties.md R127 [derived]: what ENC made of a non-empty input, copied to IBUF
while the same alphabet is active, DEC turns back into that input. -/
def Obligations.DecodeOfEncodeIsTheInput : Prop :=
  ∀ s t s' : State, AlphabetInv s.alpha s.dect → 1 ≤ s.inLen.toNat → s.inLen.toNat ≤ 256 →
    exec .enc s = .next t → s'.alpha = s.alpha → s'.dect = s.dect → s'.input = t.output →
    s'.inLen.toNat ≤ 256 →
    ∃ u, exec .dec s' = .next u ∧ u.err = 0#4 ∧ u.output = s.input

/-- 43_reference_and_properties.md R135 [derived]: what DEC made of a string, copied to IBUF while the same
alphabet is active, ENC turns back into that string. -/
def Obligations.EncodeOfDecodeIsTheString : Prop :=
  ∀ s t s' : State, AlphabetInv s.alpha s.dect →
    exec .dec s = .next t → t.err = 0#4 → s'.alpha = s.alpha → s'.input = t.output →
    ∃ u, exec .enc s' = .next u ∧ u.err = 0#4 ∧ u.output = s.input

/-- 43_reference_and_properties.md R135 [derived]: DEC is injective on the strings it accepts. -/
def Obligations.DecodeIsInjective : Prop :=
  ∀ s s' t t' : State, AlphabetInv s.alpha s.dect → s'.alpha = s.alpha → s'.dect = s.dect →
    exec .dec s = .next t → exec .dec s' = .next t' → t.err = 0#4 → t'.err = 0#4 →
    t'.output = t.output → s'.input = s.input

/-- 43_reference_and_properties.md R133 [derived]: the known vectors, under the Bitcoin ordering. -/
def Obligations.KnownVectors : Prop :=
  (∀ s : State, s.alpha = Config.roma0 → s.input = [0x00#8, 0x01#8, 0x09#8] →
    ∃ t, exec .enc s = .next t ∧ t.err = 0#4 ∧ t.output = [0x31#8, 0x35#8, 0x61#8]) ∧
  (∀ s : State, s.alpha = Config.roma0 → s.input = [0x00#8, 0x01#8, 0x02#8] →
    ∃ t, exec .enc s = .next t ∧ t.err = 0#4 ∧ t.output = [0x31#8, 0x35#8, 0x54#8]) ∧
  (∀ s : State, s.alpha = Config.roma0 → AlphabetInv s.alpha s.dect →
    s.input = [0x31#8, 0x35#8, 0x54#8] →
    ∃ t, exec .dec s = .next t ∧ t.err = 0#4 ∧ t.output = [0x00#8, 0x01#8, 0x02#8])

/-! ### The whole machine -/

/-- 40_alphabet.md R72 [derived], 10_state.md R19, R21 [derived], R22, R23: every step keeps the
invariant of the state: the active alphabet is one, the buffers are in canonical form and only their
own cells are written, STATUS.ERR is a code some command produces, OUT_LEN is at most OUT_MAX. The
canonical form is the model's (log entry 1). For SELA and Reset it rests on R78 [derived] of
40_alphabet.md and the listed contents of the predefined alphabets (log entry 7, PRESUMED). -/
def Obligations.EveryStepKeepsTheInvariant : Prop :=
  ∀ s t : State, Inv s → step s = .next t → Inv t

/-- The reset state meets the invariant (10_state.md R34, 40_alphabet.md R72 [derived], R78 [derived]); it
rests on the listed contents of ROMA[0] (log entry 7, PRESUMED), and the canonical form of the buffers
is the model's (log entry 1). -/
def Obligations.ResetMeetsTheInvariant : Prop :=
  Inv State.reset

/-- 10_state.md R19, R21 [derived], 60_exceptions.md R150: STATUS.ERR and OUT_LEN change only by Reset
or by a write to CMD. -/
def Obligations.OnlyCommandsAndResetChangeTheStatus : Prop :=
  ∀ s t : State, step s = .next t → t.err ≠ s.err ∨ t.outLen ≠ s.outLen →
    ∃ h rest, s.script = h :: rest ∧
      (h = .reset ∨ (∃ w, h = .command w) ∨
        ∃ a w, decode h = .ok (.wr a w) ∧ a.toNat = 0x000)

/-- 10_state.md R20, R22: no command writes IN_LEN or IBUF: they change only by Reset or by a host
write to IN_LEN or to an IBUF cell. -/
def Obligations.OnlyHostWritesAndResetChangeTheInput : Prop :=
  ∀ s t : State, step s = .next t → t.inLen ≠ s.inLen ∨ t.ibuf ≠ s.ibuf →
    ∃ h rest, s.script = h :: rest ∧
      (h = .reset ∨ ∃ a w, decode h = .ok (.wr a w) ∧
        (a.toNat = 0x002 ∨ (0x100 ≤ a.toNat ∧ a.toNat < 0x200)))

/-! ### Host scripts -/

/-- 30_encoding.md R64: PUT places its m bytes in IBUF[0..m) and m in IN_LEN, and changes no other cell
of IBUF and no other register, table or buffer. -/
def Obligations.PutPlacesTheInput : Prop :=
  ∀ (bs : List Byte) (s : State), bs.length ≤ 256 →
    ∃ t, hostRun (putScript bs) s = .next t ∧ t.input = bs ∧ t.inLen.toNat = bs.length ∧
      (∀ k, bs.length ≤ k → t.ibufCell k = s.ibufCell k) ∧
      t = { s with inLen := t.inLen, ibuf := t.ibuf, script := [] }

/-- 43_reference_and_properties.md R126: the facade operation `encode(B)` as a host script: the host
reads STATUS 0, then the length, then the symbols of the string the reference encoder gives under
predefined alphabet 0, in order. That those are the symbols ENC gives is R129 [derived]. -/
def Obligations.FacadeEncodeReadsTheString : Prop :=
  ∀ (B : List Byte) (s : State), B.length ≤ 256 →
    let out := refEncode (Config.roma 0#1) B
    ∃ t, hostRun (encodeScript B out.length) s = .next t ∧
      t.reads = (out.map fun c => c.setWidth 32).reverse ++
        BitVec.ofNat 32 out.length :: 0#32 :: s.reads ∧
      facadeResult t = .ok out

/-- 43_reference_and_properties.md R126: the facade operation `decode(s)` as a host script: the host
reads STATUS 0, the length and the bytes the reference decoder gives, or STATUS 2 and length 0 where
that fails, or STATUS 1 for the empty string. That DEC gives those is R129 [derived] and
R130 [derived]; it rests on ROMA[0] being an alphabet, 40_alphabet.md R78 [derived] with the listed
contents (log entry 7, PRESUMED). -/
def Obligations.FacadeDecodeReadsTheBytesOrTheError : Prop :=
  ∀ (str : List Byte) (s : State), str.length ≤ 256 →
    (str = [] → ∃ t, hostRun (decodeScript str 0) s = .next t ∧
      t.reads = 0#32 :: 1#32 :: s.reads ∧ facadeResult t = .error 1#4) ∧
    (∀ out, str ≠ [] → refDecode (Config.roma 0#1) str = some out →
      ∃ t, hostRun (decodeScript str out.length) s = .next t ∧
        t.reads = (out.map fun c => c.setWidth 32).reverse ++
          BitVec.ofNat 32 out.length :: 0#32 :: s.reads ∧
        facadeResult t = .ok out) ∧
    (str ≠ [] → refDecode (Config.roma 0#1) str = none →
      ∃ t, hostRun (decodeScript str 0) s = .next t ∧
        t.reads = 0#32 :: 2#32 :: s.reads ∧ facadeResult t = .error 2#4)

/-- 43_reference_and_properties.md R126: the first part of the `_with_alphabet` operations: after it a
well-formed caller-supplied alphabet is active, with the invariant of 40_alphabet.md R72 [derived],
and STATUS read 0. -/
def Obligations.FacadeLoadsACallersAlphabet : Prop :=
  ∀ (A : Vector Byte 58) (s : State), alphabetWellFormed A = true →
    ∃ t, hostRun (loadScript A.toList) s = .next t ∧ t.reads = 0#32 :: s.reads ∧
      t.alpha = A ∧ AlphabetInv t.alpha t.dect ∧ t.err = 0#4 ∧ t.outLen = 0#16

/-- 43_reference_and_properties.md R126: `encode(B)`, with `SELA 0` or with Reset, answers the string of
the reference encoder under predefined alphabet 0, or LengthRange above IN_MAX; from any state. That
ENC gives that string is R129 [derived]; what is done before LengthRange is answered is the model's
choice (log entry 13). -/
def Obligations.FacadeEncodeAnswers : Prop :=
  ∀ (B : List Byte) (s : State),
    (∃ t, facadeEncode B s = .next (t, encodeAnswer (Config.roma 0#1) B)) ∧
    (∃ t, convertAfter .reset .enc B s = .next (t, encodeAnswer (Config.roma 0#1) B))

/-- 43_reference_and_properties.md R126: `decode(s)`, with `SELA 0` or with Reset, answers the bytes of
the reference decoder under predefined alphabet 0, or the kind of the error: LengthRange above
IN_MAX, EmptyInput, InvalidDigit; from any state. That DEC gives those is R129 [derived] and
R130 [derived]; it rests on ROMA[0] being an alphabet, 40_alphabet.md R78 [derived] with the listed
contents (log entry 7, PRESUMED). What is done before LengthRange is answered is the model's choice
(log entry 13). -/
def Obligations.FacadeDecodeAnswers : Prop :=
  ∀ (str : List Byte) (s : State),
    (∃ t, facadeDecode str s = .next (t, decodeAnswer (Config.roma 0#1) str)) ∧
    (∃ t, convertAfter .reset .dec str s = .next (t, decodeAnswer (Config.roma 0#1) str))

/-- 43_reference_and_properties.md R126: `encode_with_alphabet` and `decode_with_alphabet` with the
alphabet of a well-formed table answer what the reference gives under that alphabet, or the kind of
the error; from any state, and that alphabet is active afterwards. That ENC and DEC give those is
R129 [derived] and R130 [derived]; what is done before LengthRange is answered is the model's choice
(log entry 13). -/
def Obligations.FacadeWithAnAlphabetAnswers : Prop :=
  ∀ (A : Vector Byte 58) (bs : List Byte) (s : State), alphabetWellFormed A = true →
    (∃ t, facadeEncodeWith bs A.toList s = .next (t, encodeAnswer A bs) ∧ t.alpha = A) ∧
    (∃ t, facadeDecodeWith bs A.toList s = .next (t, decodeAnswer A bs) ∧ t.alpha = A)

/-- 43_reference_and_properties.md R126, 40_alphabet.md R74: with a sequence of at most 256 cells that is
no alphabet (not 58 cells, or one not ASCII, or two equal) both operations answer AlphabetError and stop:
the active alphabet and OBUF are as before, whatever was to be converted. For a sequence of more than 256
cells, which does not fit IBUF, R126 names only LengthRange: that AlphabetError is answered for it too is
the model's inference from the wrong length (log entry 13, DEDUCED), and so is that nothing is put. -/
def Obligations.FacadeStopsOnAMalformedAlphabet : Prop :=
  ∀ (A bs : List Byte) (s : State),
    ¬(A.length = 58 ∧ (∀ b ∈ A, b.toNat < 128) ∧ A.Nodup) →
    ∃ t, facadeEncodeWith bs A s = .next (t, .error (errCode .alphabetError)) ∧
      facadeDecodeWith bs A s = .next (t, .error (errCode .alphabetError)) ∧
      t.alpha = s.alpha ∧ t.dect = s.dect ∧ t.obuf = s.obuf ∧ t.draws = s.draws

/-- 43_reference_and_properties.md R126: a predefined alphabet may be installed with `SELA k` instead of
`PUT`/`LDA`: the answers are the same, for ENC and for DEC. That LDA accepts the table of a predefined
alphabet is 40_alphabet.md R78 [derived], and rests on its listed contents (log entry 7, PRESUMED).
What is done before LengthRange is answered is the model's choice (log entry 13). -/
def Obligations.SelectingAnAlphabetEqualsLoadingIt : Prop :=
  ∀ (k : BitVec 1) (cmd : Instr) (bs : List Byte) (s : State), cmd = .enc ∨ cmd = .dec →
    ∃ t u ans, convertAfter (encode (.sela k)) cmd bs s = .next (t, ans) ∧
      convertWith cmd bs (Config.roma k).toList s = .next (u, ans)

/-- 40_alphabet.md R72 [derived], R78 [derived]: after SELA k and after an LDA that succeeds, the active
alphabet satisfies the invariant. For SELA it rests on the listed contents of the predefined
alphabets (log entry 7, PRESUMED). -/
def Obligations.SelaAndLdaEstablishTheAlphabetInvariant : Prop :=
  (∀ (k : BitVec 1) (s : State), ∃ t, exec (.sela k) s = .next t ∧ AlphabetInv t.alpha t.dect) ∧
  (∀ s t : State, exec .lda s = .next t → t.err = 0#4 → AlphabetInv t.alpha t.dect)
end

