-- ==== Sys2Proof/Laws/Memory.lean ====
section
/-! SUPPORT. What the operations on a buffer do: a read after a write, the canonical form kept, the
bound on the written cells kept. -/

namespace Sys2Proof.Machine

theorem Memory.read?_write_same (m : Memory) (i : Nat) (v : Byte) :
    Memory.read? (Memory.write m i v) i = some v := by
  induction m with
  | nil => simp [Memory.write, Memory.read?]
  | cons c m ih =>
    obtain ⟨j, b⟩ := c
    unfold Memory.write
    split_ifs with h1 h2
    · simp [Memory.read?]
    · simp [Memory.read?]
    · simp [Memory.read?, h2, ih]

theorem Memory.read?_write_other (m : Memory) (i k : Nat) (v : Byte) (h : k ≠ i) :
    Memory.read? (Memory.write m i v) k = Memory.read? m k := by
  induction m with
  | nil => simp [Memory.write, Memory.read?, h]
  | cons c m ih =>
    obtain ⟨j, b⟩ := c
    unfold Memory.write
    split_ifs with h1 h2
    · simp [Memory.read?, h]
    · subst h2; simp [Memory.read?, h]
    · simp [Memory.read?, ih]

theorem Memory.read?_writeList_outside (bs : List Byte) (m : Memory) (i k : Nat)
    (h : k < i ∨ i + bs.length ≤ k) :
    Memory.read? (Memory.writeList m i bs) k = Memory.read? m k := by
  induction bs generalizing m i with
  | nil => rfl
  | cons b bs ih =>
    simp only [List.length_cons] at h
    rw [Memory.writeList, ih _ _ (by omega), Memory.read?_write_other _ _ _ _ (by omega)]

theorem Memory.read?_writeList_inside (bs : List Byte) (m : Memory) (i k : Nat)
    (h : k < bs.length) :
    Memory.read? (Memory.writeList m i bs) (i + k) = some bs[k] := by
  induction bs generalizing m i k with
  | nil => simp at h
  | cons b bs ih =>
    rw [Memory.writeList]
    cases k with
    | zero =>
      rw [Memory.read?_writeList_outside _ _ _ _ (by omega)]
      exact Memory.read?_write_same _ _ _
    | succ k =>
      rw [show i + (k + 1) = i + 1 + k by omega, ih _ _ _ (by simpa using h)]
      rfl

/-- The canonical form of a list that begins with a cell: what follows is canonical and begins later. -/
theorem Memory.wf_cons (i : Nat) (b : Byte) (m : Memory) :
    Memory.wf ((i, b) :: m) = true ↔
      Memory.wf m = true ∧ ∀ c, m.head? = some c → i < c.1 := by
  cases m with
  | nil => simp [Memory.wf]
  | cons c m =>
    obtain ⟨j, w⟩ := c
    simp [Memory.wf, and_comm]

theorem Memory.head_write (m : Memory) (i : Nat) (v : Byte) (c : Host.Cell)
    (h : (Memory.write m i v).head? = some c) :
    c.1 = i ∨ m.head? = some c := by
  cases m with
  | nil => simp [Memory.write] at h; left; rw [← h]
  | cons d m =>
    obtain ⟨j, b⟩ := d
    unfold Memory.write at h
    split_ifs at h with h1 h2 <;> simp at h <;> subst h <;> simp

theorem Memory.write_wf (m : Memory) (i : Nat) (v : Byte) (h : Memory.wf m = true) :
    Memory.wf (Memory.write m i v) = true := by
  induction m with
  | nil => rfl
  | cons c m ih =>
    obtain ⟨j, b⟩ := c
    have hm := (Memory.wf_cons j b m).1 h
    unfold Memory.write
    split_ifs with h1 h2
    · exact (Memory.wf_cons _ _ _).2 ⟨h, by simp [h1]⟩
    · subst h2
      exact (Memory.wf_cons _ _ _).2 hm
    · refine (Memory.wf_cons _ _ _).2 ⟨ih hm.1, fun c hc => ?_⟩
      rcases Memory.head_write m i v c hc with hc | hc
      · omega
      · exact hm.2 c hc

theorem Memory.writeList_wf (bs : List Byte) (m : Memory) (i : Nat) (h : Memory.wf m = true) :
    Memory.wf (Memory.writeList m i bs) = true := by
  induction bs generalizing m i with
  | nil => exact h
  | cons b bs ih => exact ih _ _ (Memory.write_wf m i b h)

theorem Memory.write_within (cap : Nat) (m : Memory) (i : Nat) (v : Byte) (hi : i < cap)
    (h : Memory.within cap m = true) : Memory.within cap (Memory.write m i v) = true := by
  induction m with
  | nil => simp [Memory.write, Memory.within, hi]
  | cons c m ih =>
    obtain ⟨j, b⟩ := c
    simp only [Memory.within, List.all_cons, Bool.and_eq_true, decide_eq_true_eq] at h ih ⊢
    unfold Memory.write
    split_ifs with h1 h2
    · simp [hi, h.1]; simpa using h.2
    · simp [hi]; simpa using h.2
    · simp only [List.all_cons, Bool.and_eq_true, decide_eq_true_eq]
      exact ⟨h.1, ih h.2⟩

theorem Memory.writeList_within (cap : Nat) (bs : List Byte) (m : Memory) (i : Nat)
    (hi : i + bs.length ≤ cap) (h : Memory.within cap m = true) :
    Memory.within cap (Memory.writeList m i bs) = true := by
  induction bs generalizing m i with
  | nil => exact h
  | cons b bs ih =>
    simp only [List.length_cons] at hi
    exact ih _ _ (by omega) (Memory.write_within cap m i b (by omega) h)

/-- The buffers of the reset state are in canonical form. -/
theorem State.reset_buffers_wf :
    Memory.wf State.reset.ibuf = true ∧ Memory.wf State.reset.obuf = true := by decide

/-- Reading a written cell of OBUF gives the byte of the result. -/
theorem State.obufCell_commitResult_inside (s : State) (out : List Byte) (k : Nat)
    (h : k < out.length) : (s.commitResult out).obufCell k = out[k] := by
  have := Memory.read?_writeList_inside out s.obuf 0 k h
  simp only [Nat.zero_add] at this
  simp [State.obufCell, State.commitResult, this]

/-- A cell of OBUF at or beyond the length of the result keeps its value. -/
theorem State.obufCell_commitResult_outside (s : State) (out : List Byte) (k : Nat)
    (h : out.length ≤ k) : (s.commitResult out).obufCell k = s.obufCell k := by
  have := Memory.read?_writeList_outside out s.obuf 0 k (by omega)
  simp [State.obufCell, State.commitResult, this]

/-- OBUF[0..OUT_LEN) after a commit is the result. -/
theorem State.output_commitResult (s : State) (out : List Byte) (h : out.length < 65536) :
    (s.commitResult out).output = out := by
  have hl : (s.commitResult out).outLen.toNat = out.length := by
    simp [State.commitResult]; omega
  apply List.ext_getElem
  · simp [State.output, hl]
  · intro k hk hk'
    simp only [State.output, List.getElem_map, List.getElem_range]
    exact State.obufCell_commitResult_inside s out k hk'

end Sys2Proof.Machine
end

