-- ==== Sys2Proof/Laws/State.lean ====
section
/-! SUPPORT. One lemma per field and update of the state: what each named operation makes of each
field. -/

namespace Sys2Proof.Machine

@[simp] theorem State.raise_err (s : State) (e : Err) :
    (s.raise e).err = errCode e := rfl

@[simp] theorem State.raise_inLen (s : State) (e : Err) :
    (s.raise e).inLen = s.inLen := rfl

@[simp] theorem State.raise_outLen (s : State) (e : Err) :
    (s.raise e).outLen = 0#16 := rfl

@[simp] theorem State.raise_ibuf (s : State) (e : Err) :
    (s.raise e).ibuf = s.ibuf := rfl

@[simp] theorem State.raise_obuf (s : State) (e : Err) :
    (s.raise e).obuf = s.obuf := rfl

@[simp] theorem State.raise_alpha (s : State) (e : Err) :
    (s.raise e).alpha = s.alpha := rfl

@[simp] theorem State.raise_dect (s : State) (e : Err) :
    (s.raise e).dect = s.dect := rfl

@[simp] theorem State.raise_draws (s : State) (e : Err) :
    (s.raise e).draws = s.draws := rfl

@[simp] theorem State.raise_script (s : State) (e : Err) :
    (s.raise e).script = s.script := rfl

@[simp] theorem State.raise_reads (s : State) (e : Err) :
    (s.raise e).reads = s.reads := rfl

@[simp] theorem State.commitResult_err (s : State) (out : List Byte) :
    (s.commitResult out).err = okCode := rfl

@[simp] theorem State.commitResult_inLen (s : State) (out : List Byte) :
    (s.commitResult out).inLen = s.inLen := rfl

@[simp] theorem State.commitResult_outLen (s : State) (out : List Byte) :
    (s.commitResult out).outLen = BitVec.ofNat 16 out.length := rfl

@[simp] theorem State.commitResult_ibuf (s : State) (out : List Byte) :
    (s.commitResult out).ibuf = s.ibuf := rfl

@[simp] theorem State.commitResult_obuf (s : State) (out : List Byte) :
    (s.commitResult out).obuf = Memory.writeList s.obuf 0 out := rfl

@[simp] theorem State.commitResult_alpha (s : State) (out : List Byte) :
    (s.commitResult out).alpha = s.alpha := rfl

@[simp] theorem State.commitResult_dect (s : State) (out : List Byte) :
    (s.commitResult out).dect = s.dect := rfl

@[simp] theorem State.commitResult_draws (s : State) (out : List Byte) :
    (s.commitResult out).draws = s.draws := rfl

@[simp] theorem State.commitResult_script (s : State) (out : List Byte) :
    (s.commitResult out).script = s.script := rfl

@[simp] theorem State.commitResult_reads (s : State) (out : List Byte) :
    (s.commitResult out).reads = s.reads := rfl

@[simp] theorem State.commitAlphabet_err (s : State) (A : Vector Byte 58) :
    (s.commitAlphabet A).err = okCode := rfl

@[simp] theorem State.commitAlphabet_inLen (s : State) (A : Vector Byte 58) :
    (s.commitAlphabet A).inLen = s.inLen := rfl

@[simp] theorem State.commitAlphabet_outLen (s : State) (A : Vector Byte 58) :
    (s.commitAlphabet A).outLen = 0#16 := rfl

@[simp] theorem State.commitAlphabet_ibuf (s : State) (A : Vector Byte 58) :
    (s.commitAlphabet A).ibuf = s.ibuf := rfl

@[simp] theorem State.commitAlphabet_obuf (s : State) (A : Vector Byte 58) :
    (s.commitAlphabet A).obuf = s.obuf := rfl

@[simp] theorem State.commitAlphabet_alpha (s : State) (A : Vector Byte 58) :
    (s.commitAlphabet A).alpha = A := rfl

@[simp] theorem State.commitAlphabet_dect (s : State) (A : Vector Byte 58) :
    (s.commitAlphabet A).dect = buildDect A := rfl

@[simp] theorem State.commitAlphabet_draws (s : State) (A : Vector Byte 58) :
    (s.commitAlphabet A).draws = s.draws := rfl

@[simp] theorem State.commitAlphabet_script (s : State) (A : Vector Byte 58) :
    (s.commitAlphabet A).script = s.script := rfl

@[simp] theorem State.commitAlphabet_reads (s : State) (A : Vector Byte 58) :
    (s.commitAlphabet A).reads = s.reads := rfl

@[simp] theorem State.writeInLen_err (s : State) (v : Word) :
    (s.writeInLen v).err = s.err := rfl

@[simp] theorem State.writeInLen_inLen (s : State) (v : Word) :
    (s.writeInLen v).inLen = v.extractLsb' 0 16 := rfl

@[simp] theorem State.writeInLen_outLen (s : State) (v : Word) :
    (s.writeInLen v).outLen = s.outLen := rfl

@[simp] theorem State.writeInLen_ibuf (s : State) (v : Word) :
    (s.writeInLen v).ibuf = s.ibuf := rfl

@[simp] theorem State.writeInLen_obuf (s : State) (v : Word) :
    (s.writeInLen v).obuf = s.obuf := rfl

@[simp] theorem State.writeInLen_alpha (s : State) (v : Word) :
    (s.writeInLen v).alpha = s.alpha := rfl

@[simp] theorem State.writeInLen_dect (s : State) (v : Word) :
    (s.writeInLen v).dect = s.dect := rfl

@[simp] theorem State.writeInLen_draws (s : State) (v : Word) :
    (s.writeInLen v).draws = s.draws := rfl

@[simp] theorem State.writeInLen_script (s : State) (v : Word) :
    (s.writeInLen v).script = s.script := rfl

@[simp] theorem State.writeInLen_reads (s : State) (v : Word) :
    (s.writeInLen v).reads = s.reads := rfl

@[simp] theorem State.writeIbuf_err (s : State) (i : Nat) (v : Word) :
    (s.writeIbuf i v).err = s.err := rfl

@[simp] theorem State.writeIbuf_inLen (s : State) (i : Nat) (v : Word) :
    (s.writeIbuf i v).inLen = s.inLen := rfl

@[simp] theorem State.writeIbuf_outLen (s : State) (i : Nat) (v : Word) :
    (s.writeIbuf i v).outLen = s.outLen := rfl

@[simp] theorem State.writeIbuf_ibuf (s : State) (i : Nat) (v : Word) :
    (s.writeIbuf i v).ibuf = Memory.write s.ibuf i (v.extractLsb' 0 8) := rfl

@[simp] theorem State.writeIbuf_obuf (s : State) (i : Nat) (v : Word) :
    (s.writeIbuf i v).obuf = s.obuf := rfl

@[simp] theorem State.writeIbuf_alpha (s : State) (i : Nat) (v : Word) :
    (s.writeIbuf i v).alpha = s.alpha := rfl

@[simp] theorem State.writeIbuf_dect (s : State) (i : Nat) (v : Word) :
    (s.writeIbuf i v).dect = s.dect := rfl

@[simp] theorem State.writeIbuf_draws (s : State) (i : Nat) (v : Word) :
    (s.writeIbuf i v).draws = s.draws := rfl

@[simp] theorem State.writeIbuf_script (s : State) (i : Nat) (v : Word) :
    (s.writeIbuf i v).script = s.script := rfl

@[simp] theorem State.writeIbuf_reads (s : State) (i : Nat) (v : Word) :
    (s.writeIbuf i v).reads = s.reads := rfl

@[simp] theorem State.returnRead_err (s : State) (v : Word) :
    (s.returnRead v).err = s.err := rfl

@[simp] theorem State.returnRead_inLen (s : State) (v : Word) :
    (s.returnRead v).inLen = s.inLen := rfl

@[simp] theorem State.returnRead_outLen (s : State) (v : Word) :
    (s.returnRead v).outLen = s.outLen := rfl

@[simp] theorem State.returnRead_ibuf (s : State) (v : Word) :
    (s.returnRead v).ibuf = s.ibuf := rfl

@[simp] theorem State.returnRead_obuf (s : State) (v : Word) :
    (s.returnRead v).obuf = s.obuf := rfl

@[simp] theorem State.returnRead_alpha (s : State) (v : Word) :
    (s.returnRead v).alpha = s.alpha := rfl

@[simp] theorem State.returnRead_dect (s : State) (v : Word) :
    (s.returnRead v).dect = s.dect := rfl

@[simp] theorem State.returnRead_draws (s : State) (v : Word) :
    (s.returnRead v).draws = s.draws := rfl

@[simp] theorem State.returnRead_script (s : State) (v : Word) :
    (s.returnRead v).script = s.script := rfl

@[simp] theorem State.returnRead_reads (s : State) (v : Word) :
    (s.returnRead v).reads = v :: s.reads := rfl

@[simp] theorem State.resetStep_err (s : State) :
    s.resetStep.err = 0#4 := rfl

@[simp] theorem State.resetStep_inLen (s : State) :
    s.resetStep.inLen = 0#16 := rfl

@[simp] theorem State.resetStep_outLen (s : State) :
    s.resetStep.outLen = 0#16 := rfl

@[simp] theorem State.resetStep_ibuf (s : State) :
    s.resetStep.ibuf = [] := rfl

@[simp] theorem State.resetStep_obuf (s : State) :
    s.resetStep.obuf = [] := rfl

@[simp] theorem State.resetStep_alpha (s : State) :
    s.resetStep.alpha = Config.roma 0#1 := rfl

@[simp] theorem State.resetStep_dect (s : State) :
    s.resetStep.dect = buildDect (Config.roma 0#1) := rfl

@[simp] theorem State.resetStep_draws (s : State) :
    s.resetStep.draws = s.draws + 1 := rfl

@[simp] theorem State.resetStep_script (s : State) :
    s.resetStep.script = s.script := rfl

@[simp] theorem State.resetStep_reads (s : State) :
    s.resetStep.reads = s.reads := rfl

@[simp] theorem placeLine_err (s : State) (h : HostStep) :
    (placeLine s h).err = s.err := rfl

@[simp] theorem placeLine_inLen (s : State) (h : HostStep) :
    (placeLine s h).inLen = s.inLen := rfl

@[simp] theorem placeLine_outLen (s : State) (h : HostStep) :
    (placeLine s h).outLen = s.outLen := rfl

@[simp] theorem placeLine_ibuf (s : State) (h : HostStep) :
    (placeLine s h).ibuf = s.ibuf := rfl

@[simp] theorem placeLine_obuf (s : State) (h : HostStep) :
    (placeLine s h).obuf = s.obuf := rfl

@[simp] theorem placeLine_alpha (s : State) (h : HostStep) :
    (placeLine s h).alpha = s.alpha := rfl

@[simp] theorem placeLine_dect (s : State) (h : HostStep) :
    (placeLine s h).dect = s.dect := rfl

@[simp] theorem placeLine_draws (s : State) (h : HostStep) :
    (placeLine s h).draws = s.draws := rfl

@[simp] theorem placeLine_script (s : State) (h : HostStep) :
    (placeLine s h).script = h :: s.script := rfl

@[simp] theorem placeLine_reads (s : State) (h : HostStep) :
    (placeLine s h).reads = s.reads := rfl

end Sys2Proof.Machine
end

