-- ==== Sys2Proof/Laws/Commands.lean ====
section
/-! SUPPORT. Everything each meaning can do, said once: if it answers a next state, then one of these
cases holds. -/

namespace Sys2Proof.Machine

/-- ENC ends with LengthRange or commits the string of its input. -/
theorem execEnc_cases (s t : State) (h : execEnc s = .next t) :
    (s.inLen.toNat > Config.inMax ∧ t = s.raise .lengthRange) ∨
    (s.inLen.toNat ≤ Config.inMax ∧
      ∃ out, encodeString s.alpha s.input = some out ∧ t = s.commitResult out) := by
  unfold execEnc at h
  split_ifs at h with hl
  · exact .inl ⟨hl, by injection h with h; exact h.symm⟩
  · refine .inr ⟨by omega, ?_⟩
    split at h
    · cases h
    · rename_i out ho
      exact ⟨out, ho, by injection h with h; exact h.symm⟩

/-- DEC ends with an error or commits the bytes of its input. -/
theorem execDec_cases (s t : State) (h : execDec s = .next t) :
    (s.inLen.toNat > Config.inMax ∧ t = s.raise .lengthRange) ∨
    (s.inLen.toNat ≤ Config.inMax ∧
      ((∃ e, decodeString s.alpha s.dect s.input = .error e ∧ t = s.raise e) ∨
        ∃ out, decodeString s.alpha s.dect s.input = .ok out ∧ t = s.commitResult out)) := by
  unfold execDec at h
  split_ifs at h with hl
  · exact .inl ⟨hl, by injection h with h; exact h.symm⟩
  · refine .inr ⟨by omega, ?_⟩
    split at h
    · rename_i e he
      exact .inl ⟨e, he, by injection h with h; exact h.symm⟩
    · rename_i out ho
      exact .inr ⟨out, ho, by injection h with h; exact h.symm⟩

/-- LDA refuses the table in IBUF or commits it; it always answers a next state. -/
theorem execLda_cases (s : State) :
    execLda s = .next (s.raise .alphabetError) ∨
    (s.inLen.toNat = 58 ∧ (∀ b ∈ s.ibufTable.toList, isAscii b = true) ∧
      hasDuplicate s.ibufTable.toList = false ∧
      execLda s = .next (s.commitAlphabet s.ibufTable)) := by
  unfold execLda
  split_ifs with h1 h2 h3
  · exact .inl rfl
  · exact .inl rfl
  · exact .inl rfl
  · refine .inr ⟨by omega, fun b hb => ?_, by simpa using h3, rfl⟩
    by_contra hn
    exact h2 (List.any_eq_true.2 ⟨b, hb, by simpa using hn⟩)

/-- A write to CMD runs the command its word names, or ends with IllegalCommand. -/
theorem writeCmd_cases (w : Word) (s : State) :
    (∃ c, decodeCmd w = .ok c ∧ writeCmd w s = runCommand c s) ∨
    ((∃ e, decodeCmd w = .error e) ∧ writeCmd w s = .next (s.raise .illegalCommand)) := by
  unfold writeCmd
  split
  · rename_i c hc
    exact .inl ⟨c, hc, rfl⟩
  · rename_i e he
    exact .inr ⟨⟨e, he⟩, rfl⟩

/-- A write runs a command, or stores in IN_LEN or IBUF, or does nothing. -/
theorem execWr_cases (addr : BitVec 12) (v : BitVec 32) (s : State) :
    (locate addr = .cmd ∧ execWr addr v s = writeCmd v s) ∨
    (locate addr = .inLen ∧ execWr addr v s = .next (s.writeInLen v)) ∨
    (∃ i, locate addr = .ibuf i ∧ execWr addr v s = .next (s.writeIbuf i v)) ∨
    (locate addr ≠ .cmd ∧ locate addr ≠ .inLen ∧ (∀ i, locate addr ≠ .ibuf i) ∧
      execWr addr v s = .next s) := by
  unfold execWr
  cases h : locate addr <;> simp

/-- The four things a step can do, by the next line of the script. -/
theorem step_cases (s : State) :
    (s.script = [] ∧ step s = .next s) ∨
    (∃ h rest i, s.script = h :: rest ∧ decode h = .ok i ∧
      step s = exec i { s with script := rest }) ∨
    (∃ h rest, s.script = h :: rest ∧ decode h = .error .illegalCommand ∧
      step s = .next ((State.mk s.err s.inLen s.outLen s.ibuf s.obuf s.alpha s.dect s.draws rest
        s.reads).raise .illegalCommand)) ∨
    (∃ h rest, s.script = h :: rest ∧ decode h = .error .resetLine ∧
      step s = .next (State.resetStep { s with script := rest })) := by
  cases hs : s.script with
  | nil => exact .inl ⟨rfl, by simp [step, fetch, hs]⟩
  | cons h rest =>
    refine .inr ?_
    cases hd : decode h with
    | ok i => exact .inl ⟨h, rest, i, rfl, hd, by simp [step, fetch, fetchLine, hs, hd]⟩
    | error e =>
      cases e with
      | illegalCommand =>
        exact .inr (.inl ⟨h, rest, rfl, hd, by
          simp [step, fetch, fetchLine, hs, hd, illegalCommand]⟩)
      | resetLine =>
        exact .inr (.inr ⟨h, rest, rfl, hd, by simp [step, fetch, fetchLine, hs, hd]⟩)

end Sys2Proof.Machine
end

