-- ==== Sys2Proof/Laws/Operands.lean ====
section
/-! SUPPORT. What the address decode and the sequence functions answer. -/

namespace Sys2Proof.Machine

theorem locate_cmd (a : Index) (h : a.toNat = 0) : locate a = .cmd := by simp [locate, h]

theorem locate_status (a : Index) (h : a.toNat = 1) : locate a = .status := by simp [locate, h]

theorem locate_inLen (a : Index) (h : a.toNat = 2) : locate a = .inLen := by simp [locate, h]

theorem locate_outLen (a : Index) (h : a.toNat = 3) : locate a = .outLen := by simp [locate, h]

theorem locate_ibuf (a : Index) (i : Nat) (hi : i < 256) (h : a.toNat = 0x100 + i) :
    locate a = .ibuf i := by
  simp only [locate, ibufBase, Config.inMax, h]
  repeat rw [if_neg (by omega)]
  rw [if_pos (by omega), Nat.add_sub_cancel_left]

theorem locate_obuf (a : Index) (i : Nat) (hi : i < 354) (h : a.toNat = 0x400 + i) :
    locate a = .obuf i := by
  simp only [locate, ibufBase, obufBase, Config.inMax, Config.outMax, h]
  repeat rw [if_neg (by omega)]
  rw [if_pos (by omega), Nat.add_sub_cancel_left]

theorem locate_alpha (a : Index) (d : Fin 58) (h : a.toNat = 0x800 + d.val) :
    locate a = .alpha d := by
  have hd := d.isLt
  unfold locate
  rw [if_neg (by omega), if_neg (by omega), if_neg (by omega), if_neg (by omega),
    if_neg (by simp [ibufBase, Config.inMax]; omega), if_neg (by simp [obufBase, Config.outMax]; omega), dif_pos (by omega)]
  exact congrArg _ (Fin.ext (by simp only; omega))

theorem locate_dect (a : Index) (c : Fin 128) (h : a.toNat = 0x880 + c.val) :
    locate a = .dect c := by
  have hc := c.isLt
  unfold locate
  rw [if_neg (by omega), if_neg (by omega), if_neg (by omega), if_neg (by omega),
    if_neg (by simp [ibufBase, Config.inMax]; omega), if_neg (by simp [obufBase, Config.outMax]; omega), dif_neg (by omega),
    dif_pos (by omega)]
  exact congrArg _ (Fin.ext (by simp only; omega))

theorem locate_reserved (a : Index) (h : Reserved a.toNat) : locate a = .reserved := by
  unfold Reserved at h
  unfold locate
  rw [if_neg (by omega), if_neg (by omega), if_neg (by omega), if_neg (by omega),
    if_neg (by simp [ibufBase, Config.inMax]; omega), if_neg (by simp [obufBase, Config.outMax]; omega), dif_neg (by omega),
    dif_neg (by omega)]

/-- The address decode, inverted: what a location is says which indices it has (10_state.md R17). -/
theorem locate_cases (a : Index) :
    (a.toNat = 0 ∧ locate a = .cmd) ∨ (a.toNat = 1 ∧ locate a = .status) ∨
    (a.toNat = 2 ∧ locate a = .inLen) ∨ (a.toNat = 3 ∧ locate a = .outLen) ∨
    (∃ i, i < 256 ∧ a.toNat = 0x100 + i ∧ locate a = .ibuf i) ∨
    (∃ i, i < 354 ∧ a.toNat = 0x400 + i ∧ locate a = .obuf i) ∨
    (∃ d : Fin 58, a.toNat = 0x800 + d.val ∧ locate a = .alpha d) ∨
    (∃ c : Fin 128, a.toNat = 0x880 + c.val ∧ locate a = .dect c) ∨
    (Reserved a.toNat ∧ locate a = .reserved) := by
  have ha := a.isLt
  by_cases h0 : a.toNat = 0
  · exact .inl ⟨h0, locate_cmd a h0⟩
  by_cases h1 : a.toNat = 1
  · exact .inr (.inl ⟨h1, locate_status a h1⟩)
  by_cases h2 : a.toNat = 2
  · exact .inr (.inr (.inl ⟨h2, locate_inLen a h2⟩))
  by_cases h3 : a.toNat = 3
  · exact .inr (.inr (.inr (.inl ⟨h3, locate_outLen a h3⟩)))
  by_cases h4 : 0x100 ≤ a.toNat ∧ a.toNat < 0x200
  · have e : a.toNat = 0x100 + (a.toNat - 0x100) := by omega
    exact .inr (.inr (.inr (.inr (.inl ⟨_, by omega, e, locate_ibuf a _ (by omega) e⟩))))
  by_cases h5 : 0x400 ≤ a.toNat ∧ a.toNat < 0x562
  · have e : a.toNat = 0x400 + (a.toNat - 0x400) := by omega
    exact .inr (.inr (.inr (.inr (.inr (.inl ⟨_, by omega, e, locate_obuf a _ (by omega) e⟩)))))
  by_cases h6 : 0x800 ≤ a.toNat ∧ a.toNat < 0x83A
  · have e : a.toNat = 0x800 + (a.toNat - 0x800) := by omega
    exact .inr (.inr (.inr (.inr (.inr (.inr (.inl
      ⟨⟨a.toNat - 0x800, by omega⟩, e, locate_alpha a _ e⟩))))))
  by_cases h7 : 0x880 ≤ a.toNat ∧ a.toNat < 0x900
  · have e : a.toNat = 0x880 + (a.toNat - 0x880) := by omega
    exact .inr (.inr (.inr (.inr (.inr (.inr (.inr (.inl
      ⟨⟨a.toNat - 0x880, by omega⟩, e, locate_dect a _ e⟩)))))))
  have hr : Reserved a.toNat := by unfold Reserved; omega
  exact .inr (.inr (.inr (.inr (.inr (.inr (.inr (.inr ⟨hr, locate_reserved a hr⟩)))))))

@[simp] theorem State.input_length (s : State) : s.input.length = s.inLen.toNat := by
  simp [State.input]

@[simp] theorem State.output_length (s : State) : s.output.length = s.outLen.toNat := by
  simp [State.output]

theorem State.input_getElem (s : State) (i : Nat) (h : i < s.input.length) :
    s.input[i] = s.ibufCell i := by
  simp [State.input]

theorem leadingRun_le (z : Byte) (bs : List Byte) : leadingRun z bs ≤ bs.length := by
  induction bs with
  | nil => simp [leadingRun]
  | cons b bs ih => simp only [leadingRun]; split_ifs <;> simp; exact ih

/-- A sequence is its leading run and the rest, which does not begin with the cell counted. -/
theorem leadingRun_split (z : Byte) (bs : List Byte) :
    bs = List.replicate (leadingRun z bs) z ++ bs.drop (leadingRun z bs) ∧
      (bs.drop (leadingRun z bs)).head? ≠ some z := by
  induction bs with
  | nil => simp [leadingRun]
  | cons b bs ih =>
    by_cases h : b = z
    · subst h
      simp only [leadingRun, if_true, List.replicate_succ, List.drop_succ_cons, List.cons_append]
      exact ⟨by rw [← ih.1], ih.2⟩
    · simp [leadingRun, h]

end Sys2Proof.Machine
end

