-- ==== Sys2Proof/Laws/Numbers.lean ====
section
/-! SUPPORT. The numbers that byte, digit and word sequences denote (00_scope.md R9). -/

namespace Sys2Proof.Machine

/-- The number of a concatenation. -/
theorem val256_append (a b : List Byte) : val256 (a ++ b) = val256 a * 256 ^ b.length + val256 b := by
  suffices h : ∀ (b : List Byte) (v : Nat), b.foldl (fun v d => v * 256 + d.toNat) v = v * 256 ^ b.length + val256 b by
    unfold val256; rw [List.foldl_append, h]; rfl
  intro b
  induction b with
  | nil => intro v; simp [val256]
  | cons d b ih =>
    intro v
    simp only [val256, List.foldl_cons, List.length_cons] at ih ⊢
    rw [ih, ih (0 * 256 + d.toNat)]
    ring

theorem val256_cons (a : Byte) (b : List Byte) : val256 (a :: b) = a.toNat * 256 ^ b.length + val256 b := by
  have := val256_append [a] b
  simpa [val256] using this

/-- A sequence of n bytes denotes a number below 256^n. -/
theorem val256_lt (bs : List Byte) : val256 bs < 256 ^ bs.length := by
  induction bs with
  | nil => simp [val256]
  | cons b bs ih =>
    rw [val256_cons, List.length_cons, pow_succ]
    have := b.isLt
    nlinarith

/-- Leading zero bytes contribute nothing (43_reference_and_properties.md R121). -/
theorem val256_zeros (n : Nat) : val256 (List.replicate n 0#8) = 0 := by
  induction n with
  | zero => rfl
  | succ n ih => rw [List.replicate_succ, val256_cons, ih]; simp

/-- The number of a concatenation of digits. -/
theorem val58_append (a b : List Digit) : val58 (a ++ b) = val58 a * 58 ^ b.length + val58 b := by
  suffices h : ∀ (b : List Digit) (v : Nat), b.foldl (fun v d => v * 58 + d.val) v = v * 58 ^ b.length + val58 b by
    unfold val58; rw [List.foldl_append, h]; rfl
  intro b
  induction b with
  | nil => intro v; simp [val58]
  | cons d b ih =>
    intro v
    simp only [val58, List.foldl_cons, List.length_cons] at ih ⊢
    rw [ih, ih (0 * 58 + d.val)]
    ring

theorem val58_cons (a : Digit) (b : List Digit) : val58 (a :: b) = a.val * 58 ^ b.length + val58 b := by
  have := val58_append [a] b
  simpa [val58] using this

theorem val58_zeros (n : Nat) : val58 (List.replicate n 0) = 0 := by
  induction n with
  | zero => rfl
  | succ n ih => rw [List.replicate_succ, val58_cons, ih]; simp

/-- The number of a concatenation of words. -/
theorem valWords_append (a b : List Word) : valWords (a ++ b) = valWords a * (2^32) ^ b.length + valWords b := by
  suffices h : ∀ (b : List Word) (v : Nat), b.foldl (fun v d => v * 2^32 + d.toNat) v = v * (2^32) ^ b.length + valWords b by
    unfold valWords; rw [List.foldl_append, h]; rfl
  intro b
  induction b with
  | nil => intro v; simp [valWords]
  | cons d b ih =>
    intro v
    simp only [valWords, List.foldl_cons, List.length_cons] at ih ⊢
    rw [ih, ih (0 * 2^32 + d.toNat)]
    ring

theorem valWords_cons (a : Word) (b : List Word) : valWords (a :: b) = a.toNat * (2^32) ^ b.length + valWords b := by
  have := valWords_append [a] b
  simpa [valWords] using this

/-- W words denote a number below 2^(32 W). -/
theorem valWords_lt (acc : List Word) : valWords acc < (2^32)^acc.length := by
  induction acc with
  | nil => simp [valWords]
  | cons w acc ih =>
    rw [valWords_cons, List.length_cons, pow_succ (2^32) acc.length]
    have := w.isLt
    generalize (2^32)^acc.length = Q at *
    nlinarith

theorem valWords_zero (n : Nat) : valWords (List.replicate n 0#32) = 0 := by
  induction n with
  | zero => rfl
  | succ n ih => rw [List.replicate_succ, valWords_cons, ih]; simp

theorem val58_ofDigits (ds : List Digit) : val58 ds = Nat.ofDigits 58 (ds.map Fin.val).reverse := by
  induction ds with
  | nil => rfl
  | cons d ds ih =>
    rw [val58_cons, List.map_cons, List.reverse_cons, Nat.ofDigits_append, ih]
    simp [Nat.ofDigits]; ring

/-- Digits58 gives back a digit sequence without leading zero. -/
theorem digits58_val58 (ds : List Digit) (h : ∀ d, ds.head? = some d → d ≠ 0) : digits58 (val58 ds) = ds := by
  rw [digits58, val58_ofDigits, Nat.digits_ofDigits 58 (by norm_num)]
  · rw [List.map_reverse, List.reverse_reverse, List.map_map]
    have : (toDigit ∘ Fin.val : Digit → Digit) = id := by
      funext d; ext; simp [toDigit]
    rw [this, List.map_id]
  · intro l hl
    simp only [List.mem_reverse, List.mem_map] at hl
    obtain ⟨d, _, rfl⟩ := hl
    exact d.isLt
  · intro hne
    cases ds with
    | nil => simp at hne
    | cons d ds =>
      simp
      intro h0
      exact h d rfl h0

theorem val256_ofDigits (ds : List Byte) : val256 ds = Nat.ofDigits 256 (ds.map BitVec.toNat).reverse := by
  induction ds with
  | nil => rfl
  | cons d ds ih =>
    rw [val256_cons, List.map_cons, List.reverse_cons, Nat.ofDigits_append, ih]
    simp [Nat.ofDigits]; ring

/-- MinBytes gives back a byte sequence without leading zero. -/
theorem minBytes_val256 (ds : List Byte) (h : ds.head? ≠ some 0#8) : minBytes (val256 ds) = ds := by
  rw [minBytes, val256_ofDigits, Nat.digits_ofDigits 256 (by norm_num)]
  · rw [List.map_reverse, List.reverse_reverse, List.map_map]
    have : (BitVec.ofNat 8 ∘ BitVec.toNat : Byte → Byte) = id := by
      funext d; simp
    rw [this, List.map_id]
  · intro l hl
    simp only [List.mem_reverse, List.mem_map] at hl
    obtain ⟨d, _, rfl⟩ := hl
    exact d.isLt
  · intro hne
    cases ds with
    | nil => simp at hne
    | cons d ds =>
      simp
      intro h0
      apply h; simp; exact BitVec.eq_of_toNat_eq (by simpa using h0)

/-- Without its leading zeros a byte sequence is the shortest one of its number. -/
theorem drop_leadingRun (raw : List Byte) : raw.drop (leadingRun 0#8 raw) = minBytes (val256 raw) := by
  have h := leadingRun_split 0#8 raw
  have hv : val256 raw = val256 (raw.drop (leadingRun 0#8 raw)) := by
    conv_lhs => rw [h.1]
    rw [val256_append, val256_zeros]; simp
  rw [hv, minBytes_val256 _ h.2]

/-- Val256 of MinBytes. -/
theorem val256_minBytes (v : Nat) : val256 (minBytes v) = v := by
  rw [val256_ofDigits, minBytes]
  have : (((Nat.digits 256 v).map (BitVec.ofNat 8)).reverse.map BitVec.toNat).reverse = Nat.digits 256 v := by
    rw [List.map_reverse, List.reverse_reverse, List.map_map]
    apply List.ext_getElem
    · simp
    · intro i h1 h2
      simp
      exact (Nat.digits_lt_base (b := 256) (m := v) (by norm_num) (List.getElem_mem h2))
  rw [this, Nat.ofDigits_digits]

/-- MinBytes has no leading zero byte. -/
theorem minBytes_head (v : Nat) : (minBytes v).head? ≠ some 0#8 := by
  intro h
  have hs := leadingRun_split 0#8 (minBytes v)
  have hd := drop_leadingRun (minBytes v)
  rw [val256_minBytes] at hd
  have : leadingRun 0#8 (minBytes v) = 0 := by
    have := congrArg List.length hd
    rw [List.length_drop] at this
    have hle := leadingRun_le 0#8 (minBytes v)
    by_contra hne
    have : (minBytes v).length = 0 := by omega
    have : minBytes v = [] := List.length_eq_zero_iff.1 this
    rw [this] at h; simp at h
  cases hm : minBytes v with
  | nil => rw [hm] at h; simp at h
  | cons b bs =>
    rw [hm] at h this
    simp at h
    simp [leadingRun, h] at this

theorem minBytes_length_le (v S : Nat) (h : v < 256 ^ S) : (minBytes v).length ≤ S := by
  simp only [minBytes, List.length_reverse, List.length_map]
  exact Nat.digits_length_le_iff (by norm_num) v |>.2 h

theorem digits58_length_le (v S : Nat) (h : v < 58 ^ S) : (digits58 v).length ≤ S := by
  simp only [digits58, List.length_reverse, List.length_map]
  exact Nat.digits_length_le_iff (by norm_num) v |>.2 h

/-- The cells ENC emits do not begin with a zero digit (41_encode.md R92). -/
theorem skip_head (wb : List Digit) : ∀ d, (skipZeroDigits wb).head? = some d → d ≠ 0 := by
  induction wb with
  | nil => simp [skipZeroDigits]
  | cons a wb ih =>
    intro d hd
    unfold skipZeroDigits at hd
    split_ifs at hd with h
    · exact ih d hd
    · simp at hd; subst hd; exact h

theorem skip_val (wb : List Digit) : val58 (skipZeroDigits wb) = val58 wb := by
  induction wb with
  | nil => rfl
  | cons a wb ih =>
    unfold skipZeroDigits
    split_ifs with h
    · subst h; rw [ih, val58_cons]; simp
    · rfl

/-- The two ways of counting leading zero bytes agree. -/
theorem lz_eq (bs : List Byte) : lz bs = leadingRun 0#8 bs := by
  induction bs with
  | nil => rfl
  | cons b bs ih =>
    unfold lz leadingRun
    by_cases h : b = 0#8
    · simp [h]; exact ih
    · simp [h]

theorem takeWhile_run (z : Byte) (str : List Byte) : (str.takeWhile (fun c => c == z)).length = leadingRun z str := by
  induction str with
  | nil => rfl
  | cons b bs ih =>
    unfold leadingRun
    by_cases h : b = z
    · simp [h]; exact ih
    · simp [h]

/-- The loop of RefEncode gives Digits58. -/
theorem refSymbols_eq (A : Vector Byte 58) (n v : Nat) (out : List Byte) (h : v ≤ n) :
    refSymbols A n v out = (digits58 v).map A.get ++ out := by
  induction n generalizing v out with
  | zero => 
    have : v = 0 := by omega
    subst this; simp [refSymbols, digits58]
  | succ n ih =>
    unfold refSymbols
    split_ifs with h0
    · subst h0; simp [digits58]
    · rw [ih _ _ (by omega)]
      have : digits58 v = digits58 (v/58) ++ [toDigit v] := by
        unfold digits58
        rw [Nat.digits_def' (by norm_num) (by omega)]
        simp [toDigit]
      rw [this]; simp

/-- RefEncode in closed form (43_reference_and_properties.md R122). -/
theorem refEncode_eq (A : Vector Byte 58) (bin : List Byte) :
    refEncode A bin = List.replicate (leadingRun 0#8 bin) (A.get 0) ++ (digits58 (val256 bin)).map A.get := by
  rw [refEncode, refSymbols_eq _ _ _ _ le_rfl, lz_eq]; simp

end Sys2Proof.Machine
end

