-- ==== Sys2Proof/Laws/Loops.lean ====
section
/-! SUPPORT. What each inner loop of ENC and DEC can do. -/

namespace Sys2Proof.Machine

/-- A pass keeps the length of WB. -/
theorem fullPass_length (i c : Nat) (wb : List Digit) : (fullPass i c wb).1.length = wb.length := by
  induction i generalizing c wb with
  | zero => rfl
  | succ i ih => simp [fullPass, ih]

/-- A pass below cell i leaves the cells from i on. -/
theorem fullPass_getD_ge (i c : Nat) (wb : List Digit) (k : Nat) (h : i ≤ k) :
    (fullPass i c wb).1.getD k 0 = wb.getD k 0 := by
  induction i generalizing c wb with
  | zero => rfl
  | succ i ih =>
    simp only [fullPass]
    rw [ih _ _ (by omega)]
    simp only [List.getD_eq_getElem?_getD]
    rw [List.getElem?_set_ne (by omega)]

theorem val58_take_succ (wb : List Digit) (i : Nat) (h : i < wb.length) :
    val58 (wb.take (i+1)) = val58 (wb.take i) * 58 + (wb.getD i 0).val := by
  rw [List.take_succ_eq_append_getElem h, val58_append]
  simp [val58, List.getD_eq_getElem?_getD, h]

/-- A pass over the cells below i multiplies their number by 256 and adds the carry (41_encode.md R89). -/
theorem fullPass_value (i c : Nat) (wb : List Digit) (h : i ≤ wb.length) :
    val58 ((fullPass i c wb).1.take i) + (fullPass i c wb).2 * 58 ^ i = 256 * val58 (wb.take i) + c := by
  induction i generalizing c wb with
  | zero => simp [fullPass, val58]
  | succ i ih =>
    have hi : i < wb.length := by omega
    rw [val58_take_succ _ i (by rw [fullPass_length]; exact hi), val58_take_succ wb i hi]
    simp only [fullPass]
    rw [fullPass_getD_ge _ _ _ _ (le_refl i)]
    have ih' := ih (cellStep (wb.getD i 0) c).2 (wb.set i (cellStep (wb.getD i 0) c).1) (by simp; omega)
    have htake : (wb.set i (cellStep (wb.getD i 0) c).1).take i = wb.take i := by
      apply List.ext_getElem?; intro k
      simp only [List.getElem?_take]
      split_ifs with hk
      · rw [List.getElem?_set_ne (by omega)]
      · rfl
    rw [htake] at ih'
    have hget : ((wb.set i (cellStep (wb.getD i 0) c).1).getD i 0) = (cellStep (wb.getD i 0) c).1 := by
      simp [List.getD_eq_getElem?_getD, hi]
    rw [hget]
    generalize (fullPass i (cellStep (wb.getD i 0) c).2 (wb.set i (cellStep (wb.getD i 0) c).1)) = r at *
    simp only [cellStep] at ih' ⊢
    have hd := Nat.div_add_mod (256 * (wb.getD i 0).val + c) 58
    rw [pow_succ]
    nlinarith

/-- A pass of zero cells without a carry changes nothing (41_encode.md R91). -/
theorem fullPass_zero (i : Nat) (wb : List Digit) (hz : ∀ j, j < i → wb.getD j 0 = 0) :
    fullPass i 0 wb = (wb, 0) := by
  induction i with
  | zero => rfl
  | succ i ih =>
    have h0 := hz i (by omega)
    have hset : wb.set i 0 = wb := by
      apply List.ext_getElem?; intro k
      rw [List.getElem?_set]
      split_ifs with h1 h2
      · subst h1
        simp [List.getD_eq_getElem?_getD, h2] at h0
        simp [h2, h0]
      · subst h1; rw [List.getElem?_eq_none (by omega)]
      · rfl
    simp only [fullPass, h0]
    have e : cellStep 0 0 = (0, 0) := by decide
    rw [e]; simp only
    rw [hset]
    exact ih (fun j hj => hz j (by omega))

/-- The loop with the water mark does what the full pass does, where the cells above the mark are zero and
the pass loses no carry; the cells above the new mark are zero (41_encode.md R90, R91). -/
theorem carryLoop_eq (high i c : Nat) (wb : List Digit)
    (hz : ∀ j, j < high → j < i → wb.getD j 0 = 0) (h0 : (fullPass i c wb).2 = 0) :
    ∃ h', carryLoop high i c wb = some ((fullPass i c wb).1, h') ∧
      ∀ j, j < h' → (fullPass i c wb).1.getD j 0 = 0 := by
  induction i generalizing c wb with
  | zero =>
    simp only [fullPass] at h0 ⊢
    refine ⟨0, by simp [carryLoop, h0], by simp⟩
  | succ i ih =>
    unfold carryLoop
    split_ifs with hc
    · simp only [fullPass] at h0 ⊢
      apply ih _ _ _ h0
      intro j hj hji
      simp only [List.getD_eq_getElem?_getD]
      rw [List.getElem?_set_ne (by omega)]
      have := hz j hj (by omega)
      simpa [List.getD_eq_getElem?_getD] using this
    · simp only [not_or, ge_iff_le, not_le, ne_eq, not_not] at hc
      obtain ⟨h1, rfl⟩ := hc
      have hzz : ∀ j, j < i+1 → wb.getD j 0 = 0 := fun j hj => hz j (by omega) hj
      rw [fullPass_zero _ _ hzz]
      exact ⟨i+1, rfl, hzz⟩

/-- A multiply-add keeps the number of words. -/
theorem mulAdd_length (j c : Nat) (acc : List Word) : (mulAdd j c acc).1.length = acc.length := by
  induction j generalizing c acc with
  | zero => rfl
  | succ j ih => simp [mulAdd, ih]

/-- A multiply-add below word j leaves the words from j on. -/
theorem mulAdd_getD_ge (i c : Nat) (wb : List Word) (k : Nat) (h : i ≤ k) :
    (mulAdd i c wb).1.getD k 0 = wb.getD k 0 := by
  induction i generalizing c wb with
  | zero => rfl
  | succ i ih =>
    simp only [mulAdd]
    rw [ih _ _ (by omega)]
    simp only [List.getD_eq_getElem?_getD]
    rw [List.getElem?_set_ne (by omega)]

theorem valWords_take_succ (wb : List Word) (i : Nat) (h : i < wb.length) :
    valWords (wb.take (i+1)) = valWords (wb.take i) * 2^32 + (wb.getD i 0).toNat := by
  rw [List.take_succ_eq_append_getElem h, valWords_append]
  simp [valWords, List.getD_eq_getElem?_getD, h]

/-- A multiply-add over the words below j multiplies their number by 58 and adds the carry
(42_decode.md R105). -/
theorem mulAdd_value (i c : Nat) (wb : List Word) (h : i ≤ wb.length) :
    valWords ((mulAdd i c wb).1.take i) + (mulAdd i c wb).2 * (2^32) ^ i = 58 * valWords (wb.take i) + c := by
  induction i generalizing c wb with
  | zero => simp [mulAdd, valWords]
  | succ i ih =>
    have hi : i < wb.length := by omega
    rw [valWords_take_succ _ i (by rw [mulAdd_length]; exact hi), valWords_take_succ wb i hi]
    simp only [mulAdd]
    rw [mulAdd_getD_ge _ _ _ _ (le_refl i)]
    set t := (wb.getD i 0#32).toNat * 58 + c with ht
    have ih' := ih (t >>> 32) (wb.set i (BitVec.ofNat 32 t)) (by simp; omega)
    have htake : (wb.set i (BitVec.ofNat 32 t)).take i = wb.take i := by
      apply List.ext_getElem?; intro k
      simp only [List.getElem?_take]
      split_ifs with hk
      · rw [List.getElem?_set_ne (by omega)]
      · rfl
    rw [htake] at ih'
    have hget : ((wb.set i (BitVec.ofNat 32 t)).getD i 0) = BitVec.ofNat 32 t := by
      simp [List.getD_eq_getElem?_getD, hi]
    rw [hget]
    generalize (mulAdd i (t >>> 32) (wb.set i (BitVec.ofNat 32 t))) = r at *
    rw [Nat.shiftRight_eq_div_pow] at ih'
    rw [BitVec.toNat_ofNat]
    have hd := Nat.div_add_mod t (2^32)
    have hz : (wb.getD i 0) = wb.getD i 0#32 := rfl
    rw [pow_succ (2^32) i, hz]
    generalize (2^32)^i = Q at *
    have e : (r.2 * (Q * 2^32)) = (r.2 * Q) * 2^32 := by ring
    rw [e]; generalize r.2 * Q = Y at *
    omega

theorem packWord_succ (r : Nat) (w : Word) :
    packWord (r+1) w = (w >>> (8*r)).extractLsb' 0 8 :: packWord r w := by
  unfold packWord
  rw [List.range_succ_eq_map, List.map_cons, List.map_map]
  congr 1
  apply List.map_congr_left
  intro p _
  simp only [Function.comp]
  congr 2
  congr 1
  omega

theorem packWord_length (r : Nat) (w : Word) : (packWord r w).length = r := by simp [packWord]

/-- r bytes of a word denote its low 8 r bits (42_decode.md R107). -/
theorem packWord_val (r : Nat) (w : Word) : val256 (packWord r w) = w.toNat % 256 ^ r := by
  induction r with
  | zero => simp [packWord, val256, Nat.mod_one]
  | succ r ih =>
    rw [packWord_succ, val256_cons, ih, packWord_length, Nat.mod_pow_succ]
    have : ((w >>> (8*r)).extractLsb' 0 8).toNat = w.toNat / 256 ^ r % 256 := by
      simp [BitVec.extractLsb'_toNat, Nat.shiftRight_eq_div_pow, pow_mul]
    rw [this]; ring

/-- Words packed four bytes each denote the number of the words. -/
theorem flatMap4_val (ws : List Word) : val256 (ws.flatMap (packWord 4)) = valWords ws ∧ (ws.flatMap (packWord 4)).length = 4 * ws.length := by
  induction ws with
  | nil => simp [val256, valWords]
  | cons w ws ih =>
    rw [List.flatMap_cons, val256_append, valWords_cons, ih.1, ih.2, packWord_val, List.length_append, ih.2, packWord_length]
    have := w.isLt
    constructor
    · rw [Nat.mod_eq_of_lt (by norm_num; omega), pow_mul]; norm_num
    · simp; ring

end Sys2Proof.Machine
end

