-- ==== Sys2Proof/Laws/PerInstr.lean ====
section
/-! SUPPORT. Per-instruction statements. `TableRow`: the encoded line of an instruction matches its row
of spec/opcode_table.json under the row's mask, and is of the row's format. -/

namespace Sys2Proof.Laws.TableRow

/-- The row of an instruction in spec/opcode_table.json: width, match and mask. -/
def row : Instr → Nat × Nat × Nat
  | .enc => (32, 0x00000001, 0xFFFFFFFF)
  | .dec => (32, 0x00000002, 0xFFFFFFFF)
  | .lda => (32, 0x00000003, 0xFFFFFFFF)
  | .sela _ => (32, 0x00000004, 0xFFFFFEFF)
  | .rd _ => (45, 0x000000000000, 0x100000000000)
  | .wr _ _ => (45, 0x100000000000, 0x100000000000)

/-- The width and the bits of a line that holds a word or record. -/
def bits : HostStep → Nat × Nat
  | .command w => (32, w.toNat)
  | .transaction r => (45, r.toNat)
  | .reset => (0, 0)

/-- The encoding of an instruction has the width of its row and matches it under the mask. -/
def Statement (i : Instr) : Prop :=
  (bits (encode i)).1 = (row i).1 ∧ (bits (encode i)).2 &&& (row i).2.2 = (row i).2.1

theorem enc : Statement .enc := by unfold Statement; decide

theorem dec : Statement .dec := by unfold Statement; decide

theorem lda : Statement .lda := by unfold Statement; decide

theorem sela (k : BitVec 1) : Statement (.sela k) := by
  unfold Statement
  revert k
  decide

/-- Bit 44 of a record made of `we`, an index and a word is `we`. -/
theorem record_we (b : BitVec 1) (addr : BitVec 12) (v : BitVec 32) :
    (b ++ addr ++ v : BitVec 45) &&& 0x100000000000#45 = b.setWidth 45 <<< 44 := by
  ext i hi
  simp only [BitVec.getElem_and, BitVec.getElem_append, BitVec.getElem_shiftLeft,
    BitVec.getElem_setWidth]
  have hm : (0x100000000000#45)[i] = decide (i = 44) := by
    revert i
    decide
  rw [hm]
  by_cases h : i = 44
  · subst h; simp
  · have h1 : i < 44 := by omega
    simp [h, h1]

theorem rd (addr : BitVec 12) : Statement (.rd addr) := by
  refine ⟨rfl, ?_⟩
  have h := congrArg BitVec.toNat (record_we 0#1 addr 0#32)
  rw [BitVec.toNat_and] at h
  exact h

theorem wr (addr : BitVec 12) (wdata : BitVec 32) : Statement (.wr addr wdata) := by
  refine ⟨rfl, ?_⟩
  have h := congrArg BitVec.toNat (record_we 1#1 addr wdata)
  rw [BitVec.toNat_and] at h
  exact h

end Sys2Proof.Laws.TableRow
end

