-- ==== Sys2Proof/Laws/Scripts.lean ====
section
/-! SUPPORT. Running a host script, line by line. -/

namespace Sys2Proof.Machine

/-- The first step of a run that does not stop there. -/
theorem run_succ (M : Host.Core) (n : Nat) (s t : M.State) (h : M.step s = .next t) :
    M.run (n + 1) s = M.run n t := by
  simp only [Host.Core.run, h]

theorem run_fault (M : Host.Core) (n : Nat) (s : M.State) (r : M.Fault) (h : M.step s = .fault r) :
    M.run (n + 1) s = .fault r := by
  simp only [Host.Core.run, h]

theorem run_refused (M : Host.Core) (n : Nat) (s : M.State) (r : M.Refusal)
    (h : M.step s = .refused r) : M.run (n + 1) s = .refused r := by
  simp only [Host.Core.run, h]

/-- The script a state holds does not matter to `hostRun`, which puts its own there. -/
theorem hostRun_script (lines other : List HostStep) (s : State) :
    hostRun lines { s with script := other } = hostRun lines s := rfl

theorem hostRun_nil (s : State) : hostRun [] s = .next { s with script := [] } := rfl

/-- A line that decodes to an instruction runs it, and the rest follows from the state it leaves. -/
theorem hostRun_cons (h : HostStep) (rest : List HostStep) (i : Instr) (s t : State)
    (hd : decode h = .ok i) (he : exec i { s with script := rest } = .next t)
    (hs : t.script = rest) : hostRun (h :: rest) s = hostRun rest t := by
  have hstep : Sys2Proof.core.step { s with script := h :: rest } = .next t := by
    show step { s with script := h :: rest } = .next t
    simp only [step, fetch, fetchLine, hd]
    exact he
  unfold hostRun
  rw [List.length_cons, run_succ Sys2Proof.core rest.length _ _ hstep, ← hs]

@[simp] theorem andThen_next {α : Type} (t : State)
    (next : State → Host.Outcome α Fault Refusal) : andThen (.next t) next = next t := rfl

@[simp] theorem andThen_fault {α : Type} (r : Fault)
    (next : State → Host.Outcome α Fault Refusal) : andThen (.fault r) next = .fault r := rfl

@[simp] theorem andThen_refused {α : Type} (r : Refusal)
    (next : State → Host.Outcome α Fault Refusal) : andThen (.refused r) next = .refused r := rfl

/-- A command neither reads nor changes the script. -/
theorem runCommand_script (c : Command) (s : State) (x : List HostStep) :
    runCommand c { s with script := x } =
      andThen (runCommand c s) fun t => .next { t with script := x } := by
  cases c with
  | enc =>
    simp only [runCommand, execEnc]
    split_ifs
    · rfl
    · change (match encodeString s.alpha s.input with
        | none => _
        | some out => _) = _
      cases encodeString s.alpha s.input <;> rfl
  | dec =>
    simp only [runCommand, execDec]
    split_ifs
    · rfl
    · change (match decodeString s.alpha s.dect s.input with
        | .error e => _
        | .ok out => _) = _
      cases decodeString s.alpha s.dect s.input <;> rfl
  | lda =>
    simp only [runCommand, execLda]
    change (if s.inLen.toNat ≠ 58 then _ else if (s.ibufTable.toList.any fun b => !isAscii b) then _
      else if hasDuplicate s.ibufTable.toList then _ else _) = _
    split_ifs <;> rfl
  | sela k => rfl

/-- No instruction reads or changes the script. -/
theorem exec_script (i : Instr) (s : State) (x : List HostStep) :
    exec i { s with script := x } =
      andThen (exec i s) fun t => .next { t with script := x } := by
  cases i with
  | enc => exact runCommand_script .enc s x
  | dec => exact runCommand_script .dec s x
  | lda => exact runCommand_script .lda s x
  | sela k => exact runCommand_script (.sela k) s x
  | rd a => rfl
  | wr a v =>
    simp only [exec, execWr]
    cases locate a with
    | cmd =>
      simp only [writeCmd]
      cases decodeCmd v with
      | ok c => exact runCommand_script c s x
      | error e => rfl
    | _ => rfl

/-- A line runs as it does alone; the rest of the script follows from the state it leaves. -/
theorem hostRun_line (h : HostStep) (rest : List HostStep) (s : State) :
    hostRun (h :: rest) s = andThen (hostRun [h] s) (hostRun rest) := by
  have key : ∀ x, step { s with script := h :: x } =
      andThen (step { s with script := [h] }) fun t => .next { t with script := x } := by
    intro x
    simp only [step, fetch, fetchLine]
    cases decode h with
    | ok i =>
      change exec i { s with script := x } = andThen (exec i { s with script := [] }) _
      rw [exec_script i s x, exec_script i s []]
      cases exec i s <;> rfl
    | error e => cases e <;> rfl
  have run1 : ∀ x, hostRun (h :: x) s =
      andThen (step { s with script := h :: x }) fun t => Sys2Proof.core.run x.length t := by
    intro x
    cases hs : step { s with script := h :: x } with
    | next t => exact run_succ Sys2Proof.core _ _ _ hs
    | fault r => exact run_fault Sys2Proof.core _ _ _ hs
    | refused r => exact run_refused Sys2Proof.core _ _ _ hs
  rw [run1, run1 [], key rest]
  cases step { s with script := [h] } <;> rfl

/-- A script runs as its parts, one after the other. -/
theorem hostRun_append (first rest : List HostStep) (s : State) :
    hostRun (first ++ rest) s = andThen (hostRun first s) (hostRun rest) := by
  induction first generalizing s with
  | nil => rfl
  | cons h first ih =>
    rw [List.cons_append, hostRun_line, hostRun_line h first]
    cases hostRun [h] s with
    | next t => exact ih t
    | fault r => rfl
    | refused r => rfl

end Sys2Proof.Machine
end

