-- ==== Sys2Proof/Tests/Slice0.lean ====
section
/-! SUPPORT. The model's own tests: ill-formed capacities and tables refused; words written out from
the encodings; one step of each instruction against 95_test_vectors.md (named V<n> there); and for
every statement with hypotheses a witness that meets them together. -/

namespace Sys2Proof.Tests

open Sys2Proof.Machine

-- One theorem after the other: many evaluations at once would each hold a thread.
set_option Elab.async false

/-! ### Helpers -/

/-- The reset state with a sequence put into IBUF and its length into IN_LEN. -/
def holding (bs : List Byte) : State :=
  { State.reset with ibuf := Memory.writeList [] 0 bs, inLen := BitVec.ofNat 16 bs.length }

/-- Whether an outcome is a next state for which `p` says true. -/
def nextWith (o : Host.Outcome State Fault Refusal) (p : State → Bool) : Bool :=
  match o with
  | .next t => p t
  | .fault _ => false
  | .refused _ => false

theorem nextWith_spec (o : Host.Outcome State Fault Refusal) (p : State → Bool)
    (h : nextWith o p = true) : ∃ t, o = .next t ∧ p t = true := by
  cases o with
  | next t => exact ⟨t, rfl, h⟩
  | fault r => cases h
  | refused r => cases h

/-- The result a command leaves: STATUS.ERR and OBUF[0..OUT_LEN). -/
def leaves (o : Host.Outcome State Fault Refusal) (err : BitVec 4) (out : List Byte) : Bool :=
  nextWith o fun t => decide (t.err = err) && decide (t.output = out)

/-- ROMA[0] with one cell replaced. -/
def roma0With (i : Nat) (b : Byte) : List Byte :=
  Config.roma0.toList.set i b

/-! ### WellFormed: each check refuses -/

theorem test_capacities_accepted : Config.capacities.wellFormed = true := by decide

/-- IN_MAX below 58: 57. -/
theorem test_capacities_in_max_too_small :
    (Capacities.mk 57 354 354 64 256).wellFormed = false := by decide

/-- IN_MAX above 768: 769, with everything else large enough. -/
theorem test_capacities_in_max_too_large :
    (Capacities.mk 769 1063 1063 193 769).wellFormed = false := by decide

/-- OUT_MAX below IN_MAX × 138/100 + 1: 353. -/
theorem test_capacities_out_max_too_small :
    (Capacities.mk 256 353 354 64 256).wellFormed = false := by decide

/-- OUT_MAX below IN_MAX: 255. -/
theorem test_capacities_out_max_below_in_max :
    (Capacities.mk 256 255 354 64 256).wellFormed = false := by decide

/-- OUT_MAX above 1024: 1025. -/
theorem test_capacities_out_max_too_large :
    (Capacities.mk 256 1025 354 64 256).wellFormed = false := by decide

/-- WB_MAX below IN_MAX × 138/100 + 1: 353. -/
theorem test_capacities_wb_max_too_small :
    (Capacities.mk 256 354 353 64 256).wellFormed = false := by decide

/-- ACC_WORDS below (IN_MAX + 3)/4: 63. -/
theorem test_capacities_acc_words_too_small :
    (Capacities.mk 256 354 354 63 256).wellFormed = false := by decide

/-- RAW_MAX below IN_MAX: 255. -/
theorem test_capacities_raw_max_too_small :
    (Capacities.mk 256 354 354 64 255).wellFormed = false := by decide

/-- IN_MAX above 65535. -/
theorem test_capacities_in_max_above_register :
    (Capacities.mk 65536 90440 90440 16384 65536).wellFormed = false := by decide

/-- V30: a table with a cell that is not ASCII. -/
theorem test_alphabet_not_ascii :
    alphabetWellFormed (Config.roma0.set 10 0x80#8) = false := by decide +kernel

/-- V29: a table with a repeated symbol. -/
theorem test_alphabet_repeated :
    alphabetWellFormed (Config.roma0.set 57 0x31#8) = false := by decide +kernel

/-! ### Words written out from the encodings (30_encoding.md R56 to R60, R66) -/

/-- ENC: zero [31:9], k = 0, op = 0x01. -/
theorem test_decode_enc :
    decodeTableWord 32 0b00000000000000000000000_0_00000001 = some .enc := by decide

/-- DEC: zero [31:9], k = 0, op = 0x02. -/
theorem test_decode_dec :
    decodeTableWord 32 0b00000000000000000000000_0_00000010 = some .dec := by decide

/-- LDA: zero [31:9], k = 0, op = 0x03. -/
theorem test_decode_lda :
    decodeTableWord 32 0b00000000000000000000000_0_00000011 = some .lda := by decide

/-- SELA 0: zero [31:9], k = 0, op = 0x04. -/
theorem test_decode_sela0 :
    decodeTableWord 32 0b00000000000000000000000_0_00000100 = some (.sela 0#1) := by decide

/-- SELA 1: zero [31:9], k = 1, op = 0x04. -/
theorem test_decode_sela1 :
    decodeTableWord 32 0b00000000000000000000000_1_00000100 = some (.sela 1#1) := by decide

/-- RD ALPHA+9: we = 0, addr = 0x809, wdata = 0. -/
theorem test_decode_rd :
    decodeTableWord 48 0b0_100000001001_00000000000000000000000000000000 =
      some (.rd 0x809#12) := by decide

/-- RD with wdata bits set: they are ignored (R66). -/
theorem test_decode_rd_wdata_ignored :
    decodeTableWord 48 0b0_000000000001_11111111111111111111111111111111 =
      some (.rd 0x001#12) := by decide

/-- WR IBUF+57, 'z': we = 1, addr = 0x139, wdata = 0x7A (95_test_vectors.md P3). -/
theorem test_decode_wr :
    decodeTableWord 48 0b1_000100111001_00000000000000000000000001111010 =
      some (.wr 0x139#12 0x7A#32) := by decide

/-- V145 to V154: the illegal command words. -/
theorem test_decode_illegal :
    [0x00000000, 0x00000005, 0x000000FF, 0x00000101, 0x00000102, 0x00000103, 0x00000204, 0x80000001,
      0xFFFFFFFF, 0x00010001].all (fun w => decodeTableWord 32 w == none) = true := by decide

/-- A number with a bit above the format is no word and no record. -/
theorem test_decode_too_long :
    decodeTableWord 32 0x100000001 = none ∧ decodeTableWord 48 0x200000000000 = none := by decide

/-- 30_encoding.md R66: `ENC` as a record is the write of 0x00000001 to CMD. -/
theorem test_encode_records :
    recordWrite 0x000#12 0x00000001#32 = 0x100000000001#45 ∧
    recordRead 0x001#12 = 0x000100000000#45 := by decide

/-! ### One step of each instruction, against 95_test_vectors.md -/

/-- V50: FF FF encodes to "LUv"; the second byte carries into the most significant cell. -/
theorem test_enc_carries : leaves (exec .enc (holding [0xFF#8, 0xFF#8])) 0#4
    [0x4C#8, 0x55#8, 0x76#8] = true := by decide +kernel

/-- V49: 00 3A 00 encodes to "15R1"; a zero byte inside still multiplies. -/
theorem test_enc_inner_zero : leaves (exec .enc (holding [0x00#8, 0x3A#8, 0x00#8])) 0#4
    [0x31#8, 0x35#8, 0x52#8, 0x31#8] = true := by decide +kernel

/-- V89: "11233QC4" decodes to 00 00 28 7F B4 CD; two of the four zero bytes are trimmed. -/
theorem test_dec_trims : leaves (exec .dec (holding
    [0x31#8, 0x31#8, 0x32#8, 0x33#8, 0x33#8, 0x51#8, 0x43#8, 0x34#8])) 0#4
    [0x00#8, 0x00#8, 0x28#8, 0x7F#8, 0xB4#8, 0xCD#8] = true := by decide +kernel

/-- V84: "zzzzzz" decodes to 08 DD 12 26 3F; a carry crosses the words of the accumulator. -/
theorem test_dec_two_words : leaves (exec .dec (holding (List.replicate 6 0x7A#8))) 0#4
    [0x08#8, 0xDD#8, 0x12#8, 0x26#8, 0x3F#8] = true := by decide +kernel

/-- V31: ROMA[0] with cell 10 replaced by 7F loads: DECT[0x7F] = 10 and DECT[0x42] = 0xFF. -/
theorem test_lda_loads : nextWith (exec .lda (holding (roma0With 10 0x7F#8))) (fun t =>
    decide (t.err = 0#4) && decide (t.alpha.get 10 = 0x7F#8) && decide (t.dect.get 0x7F = 10#8) &&
      decide (t.dect.get 0x42 = 0xFF#8)) = true := by decide +kernel

/-- V29: ROMA[0] with cell 57 replaced by 31 is refused and the tables stay. -/
theorem test_lda_refuses : nextWith (exec .lda (holding (roma0With 57 0x31#8))) (fun t =>
    decide (t.err = 4#4) && decide (t.alpha = Config.roma0) &&
      decide (t.dect = buildDect Config.roma0)) = true := by decide +kernel

/-- V23: after SELA 1, ALPHA[9] = 'a', ALPHA[34] = 'A', DECT['a'] = 9 and DECT['z'] = 33. -/
theorem test_sela_one : nextWith (exec (.sela 1#1) State.reset) (fun t =>
    decide (t.alpha.get 9 = 0x61#8) && decide (t.alpha.get 34 = 0x41#8) &&
      decide (t.dect.get 0x61 = 9#8) && decide (t.dect.get 0x7A = 33#8)) = true := by
  decide +kernel

/-- V24: SELA 0 after that brings DECT['a'] = 33 and ALPHA[9] = 'A' back. -/
theorem test_sela_zero : nextWith (exec (.sela 0#1)
      { State.reset with alpha := Config.roma1, dect := buildDect Config.roma1 }) (fun t =>
    decide (t.alpha.get 9 = 0x41#8) && decide (t.dect.get 0x61 = 33#8)) = true := by
  decide +kernel

/-- V20 and V21 at one symbol: RD ALPHA+57 gives 'z', RD DECT+0x7A gives 57. -/
theorem test_rd_tables :
    nextWith (exec (.rd 0x839#12) State.reset) (fun t => decide (t.reads = [0x7A#32])) = true ∧
    nextWith (exec (.rd 0x8FA#12) State.reset) (fun t => decide (t.reads = [57#32])) = true := by
  decide +kernel

/-- V22 and V172: RD DECT+0x30 gives 0xFF zero-extended; the reserved locations read 0. -/
theorem test_rd_sentinel_and_reserved :
    State.reset.memRead 0x8B0#12 = 0xFF#32 ∧
    [0x004#12, 0x0FF#12, 0x200#12, 0x3FF#12, 0x562#12, 0x7FF#12, 0x83A#12, 0x87F#12, 0x900#12,
      0xFFF#12].all (fun a => State.reset.memRead a == 0#32) = true := by decide +kernel

/-- V163 and V170: WR IN_LEN keeps wdata[15:0], WR IBUF+5 keeps wdata[7:0]. -/
theorem test_wr_low_bits :
    nextWith (exec (.wr 0x002#12 0x12345#32) State.reset) (fun t =>
      decide (t.memRead 0x002#12 = 0x2345#32)) = true ∧
    nextWith (exec (.wr 0x105#12 0x1FF#32) State.reset) (fun t =>
      decide (t.memRead 0x105#12 = 0xFF#32)) = true := by decide +kernel

/-- V141 and V152 from the state of section E: WR CMD with DEC's word runs DEC, with 0x80000001 it ends
with IllegalCommand. -/
theorem test_wr_cmd :
    leaves (exec (.wr 0x000#12 0x00000002#32) (holding [0x00#8, 0x01#8, 0x09#8])) 2#4 [] = true ∧
    leaves (exec (.wr 0x000#12 0x80000001#32) (holding [0x00#8, 0x01#8, 0x09#8])) 5#4 [] = true := by
  decide +kernel

/-- V190: a Reset line clears STATUS and IN_LEN and is taken off the script. -/
theorem test_step_reset : nextWith (step { holding [0x39#8] with err := 5#4, script := [.reset] })
    (fun t => decide (t.err = 0#4) && decide (t.inLen = 0#16) && decide (t.script = [])) = true := by
  decide +kernel

/-- 40_alphabet.md R76: DECT of ROMA[0] holds 58 digits and 70 sentinels (R72). -/
theorem test_dect_counts :
    (buildDect Config.roma0).toList.count 0xFF#8 = 70 := by decide +kernel

/-- V14: RefEncode and RefDecode of 00 01 09. -/
theorem test_reference :
    refEncode Config.roma0 [0x00#8, 0x01#8, 0x09#8] = [0x31#8, 0x35#8, 0x61#8] ∧
    refDecode Config.roma0 [0x31#8, 0x35#8, 0x61#8] = some [0x00#8, 0x01#8, 0x09#8] := by
  decide +kernel

/-- The address decode at the last index of each region and the first after it. -/
theorem test_locate_edges :
    locate 0x0FF#12 = .reserved ∧ locate 0x100#12 = .ibuf 0 ∧ locate 0x1FF#12 = .ibuf 255 ∧
    locate 0x200#12 = .reserved ∧ locate 0x3FF#12 = .reserved ∧ locate 0x400#12 = .obuf 0 ∧
    locate 0x561#12 = .obuf 353 ∧ locate 0x562#12 = .reserved ∧ locate 0x7FF#12 = .reserved ∧
    locate 0x800#12 = .alpha 0 ∧ locate 0x839#12 = .alpha 57 ∧ locate 0x83A#12 = .reserved ∧
    locate 0x87F#12 = .reserved ∧ locate 0x880#12 = .dect 0 ∧ locate 0x8FF#12 = .dect 127 ∧
    locate 0x900#12 = .reserved ∧ locate 0xFFF#12 = .reserved := by decide

/-- What an operation of the facade answers, where it completes. -/
def answers (o : Host.Outcome (State × Answer) Fault Refusal) (err : Option (BitVec 4))
    (out : List Byte) : Bool :=
  match o, err with
  | .next (_, .ok x), none => decide (x = out)
  | .next (_, .error e), some k => decide (e = k)
  | _, _ => false

/-- V7, V94 and V11 through the facade, after RESET, after `SELA 1`, after `SELA 0`. -/
theorem test_facade_predefined :
    answers (convertAfter .reset .enc [0x00#8, 0x01#8, 0x09#8] State.reset) none
      [0x31#8, 0x35#8, 0x61#8] = true ∧
    answers (convertAfter (encode (.sela 1#1)) .dec [0x31#8, 0x35#8, 0x7A#8] State.reset) none
      [0x00#8, 0x01#8, 0x09#8] = true ∧
    answers (facadeDecode [0x31#8, 0x6C#8] State.reset) (some 2#4) [] = true := by decide +kernel

/-- V120 and V8 through the facade: the identity alphabet, and one of 57 symbols. -/
theorem test_facade_with_alphabet :
    answers (facadeEncodeWith [0x3A#8] ((List.range 58).map (BitVec.ofNat 8)) State.reset) none
      [0x01#8, 0x00#8] = true ∧
    answers (facadeEncodeWith [0x3A#8] ((List.range 57).map (BitVec.ofNat 8)) State.reset) (some 4#4)
      [] = true := by decide +kernel

/-- R126: 257 bytes, and 65536 bytes, whose number IN_LEN could not hold, give LengthRange. -/
theorem test_facade_too_long :
    answers (facadeEncode (List.replicate 257 0xFF#8) State.reset) (some 6#4) [] = true ∧
    answers (facadeDecode (List.replicate 65536 0x31#8) State.reset) (some 6#4) [] = true := by
  decide +kernel

/-! ### Witnesses: the hypotheses of each statement, met together -/

/-- The invariant of the alphabet holds of predefined alphabet 0. -/
theorem witness_AlphabetInv : AlphabetInv Config.roma0 (buildDect Config.roma0) where
  ascii := by decide +kernel
  distinct := by decide +kernel
  inverse := by decide +kernel
  elsewhere := by decide +kernel

/-- So it holds of every state made by `holding`. -/
theorem witness_holding (bs : List Byte) :
    AlphabetInv (holding bs).alpha (holding bs).dect := witness_AlphabetInv

theorem witness_ExactlyFiveCommandWordsAreLegal :
    [0x00000000#32, 0x00000005#32, 0x00000101#32, 0x00000204#32, 0xFFFFFFFF#32].all (fun w =>
      w != 0x00000001#32 && w != 0x00000002#32 && w != 0x00000003#32 && w != 0x00000004#32 &&
        w != 0x00000104#32) = true := by decide

theorem witness_DecodeAndEncodeAgree :
    decodeCmd 0x00000001#32 = .ok .enc ∧ decodeCmd 0x00000104#32 = .ok (.sela 1#1) := by decide

theorem witness_StepRunsTheDecodedInstruction :
    ({ State.reset with script := [.command 0x00000001#32] } : State).script =
      .command 0x00000001#32 :: [] ∧ decode (.command 0x00000001#32) = .ok .enc := by decide

theorem witness_PlacedWordRunsNext :
    decodeTableWord 32 0x00000104 = some (.sela 1#1) ∧
    decodeTableWord 48 0x1FFFFFFFFFFF = some (.wr 0xFFF#12 0xFFFFFFFF#32) := by decide

theorem witness_StepOnIllegalWordAndOnEmptyScript :
    ({ State.reset with script := [.command 0x00000101#32] } : State).script =
      .command 0x00000101#32 :: [] ∧
    decodeCmd 0x00000101#32 = .error .illegalCommand ∧ State.reset.script = [] := by decide

theorem witness_ResetStepGivesTheResetState :
    ({ holding [0x39#8] with script := [.reset] } : State).script = .reset :: [] := by decide

/-- Every clause of the address decode at the ends of its range. -/
theorem witness_AddressDecode :
    (0x000#12).toNat = 0x000 ∧ (0x001#12).toNat = 0x001 ∧ (0x002#12).toNat = 0x002 ∧
    (0x003#12).toNat = 0x003 ∧ (0x100#12).toNat = 0x100 + 0 ∧ (0x1FF#12).toNat = 0x100 + 255 ∧
    (0x400#12).toNat = 0x400 + 0 ∧ (0x561#12).toNat = 0x400 + 353 ∧
    (0x800#12).toNat = 0x800 + (0 : Fin 58).val ∧ (0x839#12).toNat = 0x800 + (57 : Fin 58).val ∧
    (0x880#12).toNat = 0x880 + (0 : Fin 128).val ∧ (0x8FF#12).toNat = 0x880 + (127 : Fin 128).val ∧
    decodeCmd 0x00000104#32 = .ok (.sela 1#1) ∧ decodeCmd 0x00000103#32 = .error .illegalCommand := by
  decide

/-- Every reserved range at both its ends, and the indices beside them outside. -/
theorem witness_Reserved :
    (∀ a ∈ [0x004#12, 0x0FF#12, 0x200#12, 0x3FF#12, 0x562#12, 0x7FF#12, 0x83A#12, 0x87F#12, 0x900#12,
      0xFFF#12], Reserved a.toNat) ∧
    ∀ a ∈ [0x003#12, 0x100#12, 0x1FF#12, 0x400#12, 0x561#12, 0x800#12, 0x839#12, 0x880#12, 0x8FF#12],
      ¬Reserved a.toNat := by
  unfold Reserved
  simp

theorem witness_IgnoredWritesAndZeroReads :
    (0x000#12).toNat = 0x000 ∧ (0x001#12).toNat = 0x001 ∧ (0x003#12).toNat = 0x003 ∧
    (0x400 ≤ (0x400#12).toNat ∧ (0x561#12).toNat < 0x562) ∧
    (0x800 ≤ (0x800#12).toNat ∧ (0x839#12).toNat < 0x83A) ∧
    (0x880 ≤ (0x880#12).toNat ∧ (0x8FF#12).toNat < 0x900) := by decide

theorem witness_ReadFrame :
    ∃ t, exec (.rd 0x839#12) State.reset = .next t := ⟨_, rfl⟩

theorem witness_WriteFrame :
    (0x001#12).toNat ≠ 0x000 ∧ (0x002#12).toNat = 0x002 ∧
    (0x100 ≤ (0x100#12).toNat ∧ (0x1FF#12).toNat < 0x200) ∧
    ((0x200#12).toNat ≠ 0x002 ∧ ¬(0x100 ≤ (0x200#12).toNat ∧ (0x200#12).toNat < 0x200)) ∧
    (0x101#12 : Index) ≠ 0x100#12 := by decide

theorem witness_LdaLoads :
    (holding (roma0With 10 0x7F#8)).inLen.toNat = 58 ∧
    (∀ d, d < 58 → ((holding (roma0With 10 0x7F#8)).ibufCell d).toNat < 128) ∧
    (∀ d, d < 58 → ∀ e, e < 58 → d < e →
      (holding (roma0With 10 0x7F#8)).ibufCell d ≠ (holding (roma0With 10 0x7F#8)).ibufCell e) := by
  decide +kernel

/-- One state for each cause of AlphabetError: V27, V30, V29. -/
theorem witness_LdaRefuses :
    (holding (Config.roma0.toList.take 57)).inLen.toNat ≠ 58 ∧
    (10 < 58 ∧ 128 ≤ ((holding (roma0With 10 0x80#8)).ibufCell 10).toNat) ∧
    (0 < 57 ∧ 57 < 58 ∧
      (holding (roma0With 57 0x31#8)).ibufCell 0 = (holding (roma0With 57 0x31#8)).ibufCell 57) := by
  decide +kernel

theorem witness_AlphabetCommandsFrame :
    (∃ t, exec .lda (holding (roma0With 10 0x7F#8)) = .next t) ∧
    (∃ t, exec (.sela 1#1) State.reset = .next t) :=
  ⟨(nextWith_spec _ (fun _ => true) (by decide +kernel)).imp fun _ h => h.1, ⟨_, rfl⟩⟩

theorem witness_BuildDectInvertsTheAlphabet :
    alphabetWellFormed Config.roma0 = true ∧
    (Config.roma0.get 57).toNat = (0x7A : Fin 128).val ∧
    ∀ d : Digit, (Config.roma0.get d).toNat ≠ (0x30 : Fin 128).val := by decide +kernel

theorem witness_SymbolAndDigitLookupsAreInverse :
    AlphabetInv Config.roma0 (buildDect Config.roma0) ∧
    decodeDigit (buildDect Config.roma0) 0x7A#8 = some 57 :=
  ⟨witness_AlphabetInv, by decide +kernel⟩

theorem witness_OnlyResetSelaAndLdaChangeTheAlphabet :
    ∃ t, step { State.reset with script := [.command 0x00000104#32] } = .next t ∧
      t.alpha ≠ State.reset.alpha :=
  (nextWith_spec (step { State.reset with script := [.command 0x00000104#32] })
    (fun t => decide (t.alpha ≠ State.reset.alpha)) (by decide +kernel)).imp
    fun _ h => ⟨h.1, by simpa using h.2⟩

theorem witness_CellStepStaysInItsBounds : (255 : Nat) ≤ 255 ∧ (0 : Nat) ≤ 255 := by decide

theorem witness_EncodeEqualsTheReferenceEncoder :
    (holding []).inLen.toNat ≤ 256 ∧ (holding (List.replicate 256 0xFF#8)).inLen.toNat ≤ 256 := by
  decide +kernel

theorem witness_EncodeOutputLengthIsBounded :
    (holding [0xFF#8]).inLen.toNat ≤ 256 ∧ ∃ t, exec .enc (holding [0xFF#8]) = .next t :=
  ⟨by decide, (nextWith_spec _ (fun _ => true) (by decide +kernel)).imp fun _ h => h.1⟩

theorem witness_EncodeOfZeroBytesIsZeroSymbols :
    (holding []).inLen = 0#16 ∧ (holding (List.replicate 3 0#8)).inLen.toNat ≤ 256 ∧
    ∀ k, k < (holding (List.replicate 3 0#8)).inLen.toNat →
      (holding (List.replicate 3 0#8)).ibufCell k = 0#8 := by decide +kernel

theorem witness_LeadingZeroBytesArePreserved :
    AlphabetInv (holding [0#8, 0#8, 0x28#8, 0x7F#8]).alpha (holding [0#8, 0#8, 0x28#8, 0x7F#8]).dect ∧
    (holding [0#8, 0#8, 0x28#8, 0x7F#8]).inLen.toNat ≤ 256 ∧
    (holding [0#8, 0#8, 0x28#8, 0x7F#8]).input = List.replicate 2 0#8 ++ 0x28#8 :: [0x7F#8] ∧
    0x28#8 ≠ 0#8 :=
  ⟨witness_AlphabetInv, by decide +kernel, by decide +kernel, by decide⟩

theorem witness_EncodingUnderTwoAlphabetsHasTheSameDigits :
    (holding [0xFF#8]).inLen.toNat ≤ 256 ∧
    ({ holding [0xFF#8] with alpha := Config.roma1 } : State).input = (holding [0xFF#8]).input ∧
    (∃ t, exec .enc (holding [0xFF#8]) = .next t) ∧
    ∃ t, exec .enc { holding [0xFF#8] with alpha := Config.roma1 } = .next t :=
  ⟨by decide, rfl, (nextWith_spec _ (fun _ => true) (by decide +kernel)).imp fun _ h => h.1,
    (nextWith_spec _ (fun _ => true) (by decide +kernel)).imp fun _ h => h.1⟩

/-- A string the reference decoder accepts and one it refuses. -/
theorem witness_DecodeEqualsTheReferenceDecoder :
    AlphabetInv (holding [0x31#8]).alpha (holding [0x31#8]).dect ∧
    (1 ≤ (holding [0x31#8]).inLen.toNat ∧ (holding [0x31#8]).inLen.toNat ≤ 256) ∧
    refDecode (holding [0x31#8]).alpha (holding [0x31#8]).input = some [0#8] ∧
    (1 ≤ (holding [0x30#8]).inLen.toNat ∧ (holding [0x30#8]).inLen.toNat ≤ 256) ∧
    refDecode (holding [0x30#8]).alpha (holding [0x30#8]).input = none :=
  ⟨witness_AlphabetInv, by decide, by decide +kernel, by decide, by decide +kernel⟩

/-- V101 and V103: a foreign cell that is ASCII and one that is not; and a string of symbols only. -/
theorem witness_DecodeRejectsExactlyForeignCells :
    (0 < (holding [0x30#8]).inLen.toNat ∧
      ∀ h : ((holding [0x30#8]).ibufCell 0).toNat < 128,
        (holding [0x30#8]).dect.get ⟨((holding [0x30#8]).ibufCell 0).toNat, h⟩ = 0xFF#8) ∧
    (1 < (holding [0x31#8, 0x80#8]).inLen.toNat ∧
      ¬((holding [0x31#8, 0x80#8]).ibufCell 1).toNat < 128) ∧
    ∀ k, k < (holding [0x31#8, 0x7A#8]).inLen.toNat →
      ∃ h : ((holding [0x31#8, 0x7A#8]).ibufCell k).toNat < 128,
        (holding [0x31#8, 0x7A#8]).dect.get ⟨((holding [0x31#8, 0x7A#8]).ibufCell k).toNat, h⟩ ≠
          0xFF#8 := by decide +kernel

theorem witness_EmptyStringIsEmptyInput : State.reset.inLen = 0#16 := rfl

theorem witness_MultiplyAddIsExact : (57 : Nat) ≤ 57 ∧ (0 : Nat) ≤ 57 := by decide

theorem witness_LengthAboveTheCapacityIsRefused :
    256 < ({ State.reset with inLen := 257#16 } : State).inLen.toNat ∧
    256 < ({ State.reset with inLen := 0xFFFF#16 } : State).inLen.toNat := by decide

theorem witness_DecodeNeverOverflows :
    AlphabetInv (holding [0x7A#8]).alpha (holding [0x7A#8]).dect ∧
    ∃ t, exec .dec (holding [0x7A#8]) = .next t :=
  ⟨witness_AlphabetInv,
    (nextWith_spec _ (fun _ => true) (by decide +kernel)).imp fun _ h => h.1⟩

/-- V74: "21". -/
theorem witness_ZeroTrimIsNeverClamped :
    AlphabetInv Config.roma0 (buildDect Config.roma0) ∧ ([0x32#8, 0x31#8] : List Byte) ≠ [] ∧
    decodeSymbols (buildDect Config.roma0) [0x32#8, 0x31#8] (List.replicate (accSize 2) 0#32) =
      .ok [0x3A#32] :=
  ⟨witness_AlphabetInv, by decide, by decide +kernel⟩

/-- Every number of bytes in the first word. -/
theorem witness_PackingIsTheByteStateMachine :
    (0 < 1 ∧ [0x39#32].length = accSize 1) ∧ (0 < 4 ∧ [0x00ACAD0F#32].length = accSize 4) ∧
    (0 < 6 ∧ [0x00000008#32, 0xDD12263F#32].length = accSize 6) := by decide

theorem witness_PackingKeepsTheNumber :
    (0 < 6 ∧ [0x00000008#32, 0xDD12263F#32].length = accSize 6 ∧
      [0x00000008#32, 0xDD12263F#32].headD 0#32 >>> (8 * firstWordBytes 6) = 0#32) ∧
    (0 < 4 ∧ [0x00ACAD0F#32].length = accSize 4 ∧ firstWordBytes 4 = 4) := by decide

theorem witness_DecodeOfZeroSymbolsIsZeroBytes :
    AlphabetInv (holding [0x31#8, 0x31#8]).alpha (holding [0x31#8, 0x31#8]).dect ∧
    1 ≤ (holding [0x31#8, 0x31#8]).inLen.toNat ∧ (holding [0x31#8, 0x31#8]).inLen.toNat ≤ 256 ∧
    ∀ k, k < (holding [0x31#8, 0x31#8]).inLen.toNat →
      (holding [0x31#8, 0x31#8]).ibufCell k = (holding [0x31#8, 0x31#8]).alpha.get 0 :=
  ⟨witness_AlphabetInv, by decide, by decide, by decide +kernel⟩

theorem witness_EncodeAndDecodeFrame :
    (∃ t, exec .enc (holding [0xFF#8]) = .next t) ∧ ∃ t, exec .dec (holding [0x7A#8]) = .next t :=
  ⟨(nextWith_spec _ (fun _ => true) (by decide +kernel)).imp fun _ h => h.1,
    (nextWith_spec _ (fun _ => true) (by decide +kernel)).imp fun _ h => h.1⟩

/-- An error of each command that has one, and an illegal word. -/
theorem witness_ErrorsLeaveEverythingElseUnchanged :
    (∃ t, exec .enc { State.reset with inLen := 257#16 } = .next t ∧ t.err ≠ 0#4) ∧
    (∃ t, exec .dec State.reset = .next t ∧ t.err ≠ 0#4) ∧
    (∃ t, exec .lda State.reset = .next t ∧ t.err ≠ 0#4) ∧
    (∃ t, exec (.wr 0x000#12 0x00000101#32) State.reset = .next t ∧ t.err ≠ 0#4) :=
  ⟨⟨_, rfl, by decide⟩, ⟨_, rfl, by decide⟩, ⟨_, rfl, by decide⟩, ⟨_, rfl, by decide⟩⟩

/-- Two states that differ in OBUF, in IBUF beyond IN_LEN and in STATUS. -/
theorem witness_ResultDependsOnlyOnTheInputs :
    let s := holding [0x7A#8]
    let s' := { s with err := 5#4, obuf := [(0, 1#8)], ibuf := [(0, 0x7A#8), (1, 0x80#8)] }
    s'.inLen = s.inLen ∧ (∀ k, k < s.inLen.toNat → s'.ibufCell k = s.ibufCell k) ∧
    s'.alpha = s.alpha ∧ s'.dect = s.dect ∧
    (∃ t, exec .dec s = .next t) ∧ ∃ t, exec .dec s' = .next t :=
  ⟨rfl, by decide +kernel, rfl, rfl,
    (nextWith_spec _ (fun _ => true) (by decide +kernel)).imp fun _ h => h.1,
    (nextWith_spec _ (fun _ => true) (by decide +kernel)).imp fun _ h => h.1⟩

theorem witness_RepeatedCommandsGiveTheSameResult :
    ∃ t u, exec .dec (holding [0x7A#8]) = .next t ∧ exec .dec t = .next u := by
  obtain ⟨t, h1, h2⟩ := nextWith_spec (exec .dec (holding [0x7A#8]))
    (fun t => nextWith (exec .dec t) fun _ => true) (by decide +kernel)
  obtain ⟨u, h3, _⟩ := nextWith_spec _ _ h2
  exact ⟨t, u, h1, h3⟩

/-- V46 and V75: FF is encoded to "5Q", which is put back. -/
theorem witness_DecodeOfEncodeIsTheInput :
    let s := holding [0xFF#8]
    let s' := holding [0x35#8, 0x51#8]
    AlphabetInv s.alpha s.dect ∧ 1 ≤ s.inLen.toNat ∧ s.inLen.toNat ≤ 256 ∧
    (∃ t, exec .enc s = .next t ∧ s'.input = t.output) ∧ s'.alpha = s.alpha ∧ s'.dect = s.dect ∧
    s'.inLen.toNat ≤ 256 :=
  ⟨witness_AlphabetInv, by decide, by decide,
    (nextWith_spec (exec .enc (holding [0xFF#8]))
      (fun t => decide ((holding [0x35#8, 0x51#8]).input = t.output)) (by decide +kernel)).imp
      fun _ h => ⟨h.1, by simpa using h.2⟩, rfl, rfl, by decide⟩

/-- V75 and V46: "5Q" is decoded to FF, which is put back. -/
theorem witness_EncodeOfDecodeIsTheString :
    let s := holding [0x35#8, 0x51#8]
    let s' := holding [0xFF#8]
    AlphabetInv s.alpha s.dect ∧
    (∃ t, exec .dec s = .next t ∧ t.err = 0#4 ∧ s'.input = t.output) ∧ s'.alpha = s.alpha :=
  ⟨witness_AlphabetInv,
    (nextWith_spec (exec .dec (holding [0x35#8, 0x51#8]))
      (fun t => decide (t.err = 0#4) && decide ((holding [0xFF#8]).input = t.output))
      (by decide +kernel)).imp
      fun _ h => ⟨h.1, by simpa using h.2⟩, rfl⟩

/-- Two states with the same string but different buffers beyond it. -/
theorem witness_DecodeIsInjective :
    let s := holding [0x7A#8]
    let s' := { s with ibuf := [(0, 0x7A#8), (1, 0x80#8)] }
    AlphabetInv s.alpha s.dect ∧ s'.alpha = s.alpha ∧ s'.dect = s.dect ∧
    (∃ t, exec .dec s = .next t ∧ t.err = 0#4 ∧ t.output = [0x39#8]) ∧
    ∃ t, exec .dec s' = .next t ∧ t.err = 0#4 ∧ t.output = [0x39#8] :=
  ⟨witness_AlphabetInv, rfl, rfl,
    (nextWith_spec _ (fun t => decide (t.err = 0#4) && decide (t.output = [0x39#8]))
      (by decide +kernel)).imp fun _ h => ⟨h.1, by simpa using h.2⟩,
    (nextWith_spec _ (fun t => decide (t.err = 0#4) && decide (t.output = [0x39#8]))
      (by decide +kernel)).imp fun _ h => ⟨h.1, by simpa using h.2⟩⟩

theorem witness_KnownVectors :
    (holding [0x00#8, 0x01#8, 0x09#8]).alpha = Config.roma0 ∧
    (holding [0x00#8, 0x01#8, 0x09#8]).input = [0x00#8, 0x01#8, 0x09#8] ∧
    (holding [0x00#8, 0x01#8, 0x02#8]).input = [0x00#8, 0x01#8, 0x02#8] ∧
    AlphabetInv (holding [0x31#8, 0x35#8, 0x54#8]).alpha (holding [0x31#8, 0x35#8, 0x54#8]).dect ∧
    (holding [0x31#8, 0x35#8, 0x54#8]).input = [0x31#8, 0x35#8, 0x54#8] :=
  ⟨rfl, by decide +kernel, by decide +kernel, witness_AlphabetInv, by decide +kernel⟩

/-- A state between a successful ENC and an LDA, with written buffers. -/
theorem witness_EveryStepKeepsTheInvariant :
    let s : State := { holding [0xFF#8] with obuf := [(353, 1#8)], outLen := 354#16, err := 6#4,
                                             script := [.command 0x00000001#32] }
    Inv s ∧ ∃ t, step s = .next t :=
  ⟨{ alphabet := witness_AlphabetInv
     ibufCanonical := by decide
     ibufWithin := by decide
     obufCanonical := by decide
     obufWithin := by decide
     errLegal := by decide
     outLenBounded := by decide },
    (nextWith_spec _ (fun _ => true) (by decide +kernel)).imp fun _ h => h.1⟩

theorem witness_OnlyCommandsAndResetChangeTheStatus :
    ∃ t, step { State.reset with script := [.transaction 0x100000000101#45] } = .next t ∧
      t.err ≠ State.reset.err :=
  (nextWith_spec (step { State.reset with script := [.transaction 0x100000000101#45] })
    (fun t => decide (t.err ≠ State.reset.err)) (by decide +kernel)).imp
    fun _ h => ⟨h.1, by simpa using h.2⟩

theorem witness_OnlyHostWritesAndResetChangeTheInput :
    (∃ t, step { State.reset with script := [.transaction 0x100200000003#45] } = .next t ∧
      t.inLen ≠ State.reset.inLen) ∧
    ∃ t, step { State.reset with script := [.transaction 0x11000000007A#45] } = .next t ∧
      t.ibuf ≠ State.reset.ibuf :=
  ⟨(nextWith_spec (step { State.reset with script := [.transaction 0x100200000003#45] })
    (fun t => decide (t.inLen ≠ State.reset.inLen)) (by decide +kernel)).imp
    fun _ h => ⟨h.1, by simpa using h.2⟩,
   (nextWith_spec (step { State.reset with script := [.transaction 0x11000000007A#45] })
    (fun t => decide (t.ibuf ≠ State.reset.ibuf)) (by decide +kernel)).imp
    fun _ h => ⟨h.1, by simpa using h.2⟩⟩

theorem witness_PutPlacesTheInput :
    ([] : List Byte).length ≤ 256 ∧ (List.replicate 256 0xFF#8).length ≤ 256 := by decide +kernel

theorem witness_FacadeEncodeReadsTheString :
    [0x00#8, 0x01#8, 0x09#8].length ≤ 256 ∧ (List.replicate 256 0xFF#8).length ≤ 256 := by decide +kernel

/-- One string for each clause: empty, accepted, refused. -/
theorem witness_FacadeDecodeReadsTheBytesOrTheError :
    ([] : List Byte).length ≤ 256 ∧
    ([0x31#8].length ≤ 256 ∧ [0x31#8] ≠ [] ∧ refDecode (Config.roma 0#1) [0x31#8] = some [0#8]) ∧
    ([0x30#8].length ≤ 256 ∧ [0x30#8] ≠ [] ∧ refDecode (Config.roma 0#1) [0x30#8] = none) := by
  decide +kernel

/-- V26: the identity alphabet. -/
theorem witness_FacadeLoadsACallersAlphabet :
    alphabetWellFormed (Vector.ofFn fun d : Fin 58 => BitVec.ofNat 8 d.val) = true := by
  decide +kernel

theorem witness_FacadeWithAnAlphabetAnswers :
    alphabetWellFormed Config.roma1 = true := by decide +kernel

/-- One sequence for each cause: the wrong length, also one that does not fit IBUF; a cell that is not
ASCII; two equal cells. -/
theorem witness_FacadeStopsOnAMalformedAlphabet :
    ([] : List Byte).length ≠ 58 ∧ (List.replicate 257 0x31#8).length ≠ 58 ∧
    ¬(∀ b ∈ roma0With 10 0x80#8, b.toNat < 128) ∧ ¬(roma0With 57 0x31#8).Nodup := by
  decide +kernel

theorem witness_SelectingAnAlphabetEqualsLoadingIt :
    Instr.enc = .enc ∨ Instr.enc = .dec := .inl rfl

theorem witness_SelaAndLdaEstablishTheAlphabetInvariant :
    ∃ t, exec .lda (holding (roma0With 10 0x7F#8)) = .next t ∧ t.err = 0#4 :=
  (nextWith_spec _ (fun t => decide (t.err = 0#4)) (by decide +kernel)).imp
    fun _ h => ⟨h.1, by simpa using h.2⟩

end Sys2Proof.Tests
end

/-! PROOFS. The register space as the host sees it (20_memory.md R42 to R45): first what a read of each
location returns and what a write to each does, by index, then the two statements. -/

namespace Sys2Proof.Machine

/-! ### What a read of each location returns -/

section MemRead

variable {s : State} {a : Index}

theorem State.memRead_cmd (h : a.toNat = 0x000) : s.memRead a = 0#32 := by
  simp [State.memRead, locate_cmd a h]

theorem State.memRead_status (h : a.toNat = 0x001) : s.memRead a = s.err.setWidth 32 := by
  simp [State.memRead, locate_status a h]

theorem State.memRead_inLen (h : a.toNat = 0x002) : s.memRead a = s.inLen.setWidth 32 := by
  simp [State.memRead, locate_inLen a h]

theorem State.memRead_outLen (h : a.toNat = 0x003) : s.memRead a = s.outLen.setWidth 32 := by
  simp [State.memRead, locate_outLen a h]

theorem State.memRead_ibuf {i : Nat} (hi : i < 256) (h : a.toNat = 0x100 + i) :
    s.memRead a = (s.ibufCell i).setWidth 32 := by
  simp [State.memRead, locate_ibuf a i hi h]

theorem State.memRead_obuf {i : Nat} (hi : i < 354) (h : a.toNat = 0x400 + i) :
    s.memRead a = (s.obufCell i).setWidth 32 := by
  simp [State.memRead, locate_obuf a i hi h]

theorem State.memRead_alpha {d : Fin 58} (h : a.toNat = 0x800 + d.val) :
    s.memRead a = (s.alpha.get d).setWidth 32 := by
  simp [State.memRead, locate_alpha a d h]

theorem State.memRead_dect {c : Fin 128} (h : a.toNat = 0x880 + c.val) :
    s.memRead a = (s.dect.get c).setWidth 32 := by
  simp [State.memRead, locate_dect a c h]

theorem State.memRead_reserved (h : Reserved a.toNat) : s.memRead a = 0#32 := by
  simp [State.memRead, locate_reserved a h]

end MemRead

/-- RD hands the host the value of the location, and does nothing else (20_memory.md R42). -/
theorem exec_rd (a : Index) (s : State) :
    exec (.rd a) s = .next { s with reads := s.memRead a :: s.reads } := rfl

/-! ### The indices of the writable locations -/

theorem toNat_of_locate_cmd {a : Index} (h : locate a = .cmd) : a.toNat = 0x000 := by
  simpa [h] using locate_cases a

theorem toNat_of_locate_inLen {a : Index} (h : locate a = .inLen) : a.toNat = 0x002 := by
  simpa [h] using locate_cases a

theorem toNat_of_locate_ibuf {a : Index} {i : Nat} (h : locate a = .ibuf i) :
    i < 256 ∧ a.toNat = 0x100 + i := by
  simpa [h] using locate_cases a

/-! ### What a write to each location does -/

/-- The IBUF cell that is written holds the low byte written (20_memory.md R44). -/
@[simp] theorem State.ibufCell_writeIbuf_same (s : State) (i : Nat) (v : Word) :
    (s.writeIbuf i v).ibufCell i = v.extractLsb' 0 8 := by
  simp [State.ibufCell, Memory.read?_write_same]

/-- Every other IBUF cell is as before, whether written since the latest Reset or not. -/
theorem State.ibufCell_writeIbuf_other (s : State) {i k : Nat} (v : Word) (h : k ≠ i) :
    (s.writeIbuf i v).ibufCell k = s.ibufCell k := by
  simp [State.ibufCell, Memory.read?_write_other _ _ _ _ h]

/-- The command a word names and the instruction of its opcode-table row have one meaning. -/
theorem runCommand_eq_exec (c : Command) (s : State) : runCommand c s = exec c.toInstr s := by
  cases c <;> rfl

section Write

variable {a : Index} {v : Word} {s : State}

/-- A legal word written to CMD runs the command it names (30_encoding.md R65). -/
theorem exec_wr_cmd_ok {c : Command} (h : a.toNat = 0x000) (hc : decodeCmd v = .ok c) :
    exec (.wr a v) s = exec c.toInstr s := by
  rw [← runCommand_eq_exec c s]
  simp [exec, execWr, locate_cmd a h, writeCmd, hc]

/-- An illegal word written to CMD ends with IllegalCommand (60_exceptions.md R146). -/
theorem exec_wr_cmd_error {e : DecodeError} (h : a.toNat = 0x000) (he : decodeCmd v = .error e) :
    exec (.wr a v) s = .next { s with err := 5#4, outLen := 0#16 } := by
  simp [exec, execWr, locate_cmd a h, writeCmd, he, illegalCommand, State.raise, errCode]

theorem exec_wr_inLen (h : a.toNat = 0x002) :
    exec (.wr a v) s = .next { s with inLen := v.extractLsb' 0 16 } := by
  simp [exec, execWr, locate_inLen a h, State.writeInLen]

theorem exec_wr_ibuf {i : Nat} (hi : i < 256) (h : a.toNat = 0x100 + i) :
    exec (.wr a v) s = .next (s.writeIbuf i v) := by
  simp [exec, execWr, locate_ibuf a i hi h]

/-- CMD, IN_LEN and IBUF are the only writable locations; a write elsewhere is ignored
(20_memory.md R45). -/
theorem exec_wr_of_not_writable (hcmd : a.toNat ≠ 0x000) (hlen : a.toNat ≠ 0x002)
    (hbuf : ¬(0x100 ≤ a.toNat ∧ a.toNat < 0x200)) : exec (.wr a v) s = .next s := by
  obtain ⟨hl, -⟩ | ⟨hl, -⟩ | ⟨i, hl, -⟩ | ⟨-, -, -, hx⟩ := execWr_cases a v s
  · exact absurd (toNat_of_locate_cmd hl) hcmd
  · exact absurd (toNat_of_locate_inLen hl) hlen
  · have hi := toNat_of_locate_ibuf hl
    exact absurd (by omega) hbuf
  · exact hx

end Write

/-! ### The statements -/

/-- Settles O10: each clause is the rule of its location; the value RD returns is MemRead's. -/
theorem addressDecode : Obligations.AddressDecode := by
  unfold Obligations.AddressDecode
  refine ⟨fun a s => ⟨s.memRead a, exec_rd a s, State.memRead_cmd, State.memRead_status,
    State.memRead_inLen, State.memRead_outLen, fun _ => State.memRead_ibuf,
    fun _ => State.memRead_obuf, fun _ => State.memRead_alpha, fun _ => State.memRead_dect,
    State.memRead_reserved⟩, fun a v s => ⟨?cmd, exec_wr_inLen, ?ibuf, ?ignored⟩⟩
  case cmd => exact fun h => ⟨fun _ => exec_wr_cmd_ok h, fun _ => exec_wr_cmd_error h⟩
  case ibuf =>
    exact fun i hi h => ⟨s.writeIbuf i v, exec_wr_ibuf hi h, rfl, s.ibufCell_writeIbuf_same i v,
      fun _ hk => s.ibufCell_writeIbuf_other v hk⟩
  case ignored =>
    intro h
    unfold Reserved at h
    exact exec_wr_of_not_writable (by omega) (by omega) (by omega)

/-- Settles O11: CMD and the reserved locations read 0, and none of the listed locations is
writable. -/
theorem ignoredWritesAndZeroReads : Obligations.IgnoredWritesAndZeroReads := by
  unfold Obligations.IgnoredWritesAndZeroReads
  constructor
  · intro a s h
    have hv : s.memRead a = 0#32 := h.elim State.memRead_cmd State.memRead_reserved
    rw [exec_rd, hv]
  · intro a v s h
    unfold Reserved at h
    exact exec_wr_of_not_writable (by omega) (by omega) (by omega)

end Sys2Proof.Machine

/-! PROOFS. The command words (30_encoding.md R57 to R62): DecodeCmd and the command words are inverse
to each other, and from that the statement. -/

namespace Sys2Proof.Machine

/-- A word is its three Format C fields `zero`, `k` and `op` (30_encoding.md R56). -/
theorem commandFields_append (w : Word) :
    w.extractLsb' 9 23 ++ w.extractLsb' 8 1 ++ w.extractLsb' 0 8 = w := by
  rw [BitVec.extractLsb'_append_extractLsb'_eq_extractLsb' (by decide : 9 = 8 + 1),
    BitVec.extractLsb'_append_extractLsb'_eq_extractLsb' (by decide : 8 = 0 + 8),
    BitVec.extractLsb'_eq_self]

/-- The word of a command decodes to that command. -/
@[simp] theorem decodeCmd_encodeCmd (c : Command) : decodeCmd (encodeCmd c) = .ok c := by
  cases c with
  | enc => rfl
  | dec => rfl
  | lda => rfl
  | sela k => revert k; decide

/-- A word that decodes to a command is the command's word, every one of its 32 bits being fixed. -/
theorem encodeCmd_of_decodeCmd {w : Word} {c : Command} (h : decodeCmd w = .ok c) :
    encodeCmd c = w := by
  rw [← commandFields_append w]
  simp only [decodeCmd] at h
  split_ifs at h with hz henc hdec hlda hsela
  all_goals
    injection h with h
    subst h
  · rw [not_not.1 hz, henc.1, henc.2]; rfl
  · rw [not_not.1 hz, hdec.1, hdec.2]; rfl
  · rw [not_not.1 hz, hlda.1, hlda.2]; rfl
  · rw [not_not.1 hz, hsela]; rfl

/-- Every command has exactly one word (30_encoding.md R57 to R60). -/
theorem decodeCmd_eq_ok_iff {w : Word} {c : Command} : decodeCmd w = .ok c ↔ w = encodeCmd c :=
  ⟨fun h => (encodeCmd_of_decodeCmd h).symm, fun h => h ▸ decodeCmd_encodeCmd c⟩

/-- The five command words, written out (30_encoding.md R62). -/
theorem encodeCmd_mem_legalWords (c : Command) :
    encodeCmd c ∈ [0x00000001#32, 0x00000002#32, 0x00000003#32, 0x00000004#32, 0x00000104#32] := by
  cases c with
  | enc => decide
  | dec => decide
  | lda => decide
  | sela k => revert k; decide

/-- Settles O1: a word decodes to a command exactly when it is that command's word, so any other word
is an error, with the effect of an illegal word. -/
theorem exactlyFiveCommandWordsAreLegal : Obligations.ExactlyFiveCommandWordsAreLegal := by
  unfold Obligations.ExactlyFiveCommandWordsAreLegal
  refine ⟨fun _ => decodeCmd_eq_ok_iff, fun _ => decodeCmd_eq_ok_iff, fun _ => decodeCmd_eq_ok_iff,
    fun _ => decodeCmd_eq_ok_iff, fun _ => decodeCmd_eq_ok_iff, ?_⟩
  intro w s henc hdec hlda hsela0 hsela1
  cases hw : decodeCmd w with
  | ok c =>
    have hmem := encodeCmd_mem_legalWords c
    rw [encodeCmd_of_decodeCmd hw] at hmem
    simp [henc, hdec, hlda, hsela0, hsela1] at hmem
  | error e => exact exec_wr_cmd_error rfl hw

end Sys2Proof.Machine

/-! PROOFS. The active alphabet (40_alphabet.md R73 to R75): first what BuildDect's assignments leave in
each cell, then what LDA's two loops test, and from these the statements about SELA, LDA and the decode
table. -/

namespace Sys2Proof.Machine

/-! ### The decode table -/

/-- One assignment of BuildDect, T[A[d]] = d (40_alphabet.md R73). -/
def assignDigit (A : Vector Byte 58) (T : Vector Byte 128) (d : Digit) : Vector Byte 128 :=
  T.setIfInBounds (A.get d).toNat (digitCell d)

theorem buildDect_eq_foldl_assignDigit (A : Vector Byte 58) :
    buildDect A = (List.finRange 58).foldl (assignDigit A) (Vector.replicate 128 sentinel) := rfl

theorem assignDigit_get (A : Vector Byte 58) (T : Vector Byte 128) (d : Digit) (c : Fin 128) :
    (assignDigit A T d).get c = if (A.get d).toNat = c.val then digitCell d else T.get c := by
  simp [assignDigit, Vector.get_eq_getElem, Vector.getElem_setIfInBounds]

section DecodeTable

variable {A : Vector Byte 58}

/-- Assignments at other symbols leave a cell as it is. -/
theorem foldl_assignDigit_get_of_ne {c : Fin 128} (ds : List Digit) (T : Vector Byte 128)
    (h : ∀ d ∈ ds, (A.get d).toNat ≠ c.val) : (ds.foldl (assignDigit A) T).get c = T.get c := by
  induction ds generalizing T with
  | nil => rfl
  | cons d ds ih =>
    rw [List.forall_mem_cons] at h
    rw [List.foldl_cons, ih _ h.2, assignDigit_get, if_neg h.1]

/-- The cell of a symbol holds its digit: no assignment after the digit's own overwrites it, the
symbols being distinct. -/
theorem foldl_assignDigit_get_of_mem (hA : ∀ d e : Digit, A.get d = A.get e → d = e) {d : Digit}
    {c : Fin 128} (hc : (A.get d).toNat = c.val) (ds : List Digit) (T : Vector Byte 128)
    (hnodup : ds.Nodup) (hd : d ∈ ds) : (ds.foldl (assignDigit A) T).get c = digitCell d := by
  obtain ⟨before, after, rfl⟩ := List.append_of_mem hd
  have hlater : ∀ e ∈ after, (A.get e).toNat ≠ c.val := by
    intro e he hce
    have hed : e = d := hA e d (BitVec.eq_of_toNat_eq (hce.trans hc.symm))
    have hd' : d ∉ after := (List.nodup_cons.1 (List.nodup_append.1 hnodup).2.1).1
    exact hd' (hed ▸ he)
  rw [List.foldl_append, List.foldl_cons, foldl_assignDigit_get_of_ne after _ hlater,
    assignDigit_get, if_pos hc]

/-- The decode table at a symbol (40_alphabet.md R73). -/
theorem buildDect_get_symbol (hA : ∀ d e : Digit, A.get d = A.get e → d = e) {d : Digit}
    {c : Fin 128} (hc : (A.get d).toNat = c.val) : (buildDect A).get c = digitCell d := by
  rw [buildDect_eq_foldl_assignDigit]
  exact foldl_assignDigit_get_of_mem hA hc _ _ (List.nodup_finRange 58) (List.mem_finRange d)

/-- The decode table at a codepoint that is no symbol (40_alphabet.md R73). -/
theorem buildDect_get_of_ne {c : Fin 128} (h : ∀ d : Digit, (A.get d).toNat ≠ c.val) :
    (buildDect A).get c = sentinel := by
  rw [buildDect_eq_foldl_assignDigit, foldl_assignDigit_get_of_ne _ _ fun d _ => h d]
  simp [Vector.get_eq_getElem]

end DecodeTable

/-! ### Well-formed tables -/

theorem alphabetWellFormed_iff (A : Vector Byte 58) :
    alphabetWellFormed A = true ↔
      (∀ d : Digit, (A.get d).toNat < 128) ∧ ∀ d e : Digit, A.get d = A.get e → d = e := by
  simp [alphabetWellFormed]

/-- The cells of a table in order. -/
theorem toList_eq_ofFn_get {n : Nat} (A : Vector Byte n) : A.toList = List.ofFn A.get := by
  apply List.ext_getElem <;> simp [Vector.get_eq_getElem]

theorem hasDuplicate_eq_false_iff (bs : List Byte) : hasDuplicate bs = false ↔ bs.Nodup := by
  induction bs with
  | nil => simp [hasDuplicate]
  | cons b bs ih => simp [hasDuplicate, ih]

/-- The two loops of LDA's pseudocode accept exactly the well-formed tables (40_alphabet.md R74). -/
theorem alphabetWellFormed_iff_loops (A : Vector Byte 58) :
    alphabetWellFormed A = true ↔
      (∀ b ∈ A.toList, isAscii b = true) ∧ hasDuplicate A.toList = false := by
  simp only [alphabetWellFormed_iff, hasDuplicate_eq_false_iff, toList_eq_ofFn_get,
    List.nodup_ofFn, List.forall_mem_ofFn_iff, isAscii, decide_eq_true_eq, Function.Injective]

@[simp] theorem State.ibufTable_get (s : State) (d : Digit) :
    s.ibufTable.get d = s.ibufCell d.val := by
  simp [State.ibufTable]

/-- The table in IBUF is well-formed when its 58 cells are ASCII and no cell equals a later one. -/
theorem alphabetWellFormed_ibufTable_iff (s : State) :
    alphabetWellFormed s.ibufTable = true ↔
      (∀ d, d < 58 → (s.ibufCell d).toNat < 128) ∧
        ∀ d e, d < e → e < 58 → s.ibufCell d ≠ s.ibufCell e := by
  simp only [alphabetWellFormed_iff, State.ibufTable_get, Fin.forall_iff, Fin.mk.injEq]
  refine and_congr Iff.rfl ⟨fun h d e hde he heq => ?_, fun h d hd e he heq => ?_⟩
  · exact hde.ne (h d (hde.trans he) e he heq)
  · obtain hde | rfl | hed := lt_trichotomy d e
    · exact absurd heq (h d e hde he)
    · rfl
    · exact absurd heq.symm (h e d hed hd)

/-! ### The commands -/

theorem exec_sela (k : BitVec 1) (s : State) :
    exec (.sela k) s = .next (s.commitAlphabet (Config.roma k)) := rfl

/-- LDA commits the table in IBUF when it is a whole well-formed alphabet. -/
theorem exec_lda_of_wellFormed {s : State} (hlen : s.inLen.toNat = 58)
    (hwf : alphabetWellFormed s.ibufTable = true) :
    exec .lda s = .next (s.commitAlphabet s.ibufTable) := by
  obtain ⟨hascii, hdup⟩ := (alphabetWellFormed_iff_loops _).1 hwf
  have hany : s.ibufTable.toList.any (fun b => !isAscii b) = false := by
    simpa only [List.any_eq_false, Bool.not_eq_true', Bool.not_eq_false] using hascii
  simp only [exec, execLda, hlen, hany, hdup, ne_eq, not_true_eq_false, Bool.false_eq_true, if_false]

/-- LDA refuses everything else with AlphabetError. -/
theorem exec_lda_of_not_wellFormed {s : State}
    (h : s.inLen.toNat = 58 → alphabetWellFormed s.ibufTable ≠ true) :
    exec .lda s = .next (s.raise .alphabetError) := by
  obtain hraise | ⟨hlen, hascii, hdup, -⟩ := execLda_cases s
  · exact hraise
  · exact absurd ((alphabetWellFormed_iff_loops _).2 ⟨hascii, hdup⟩) (h hlen)

/-! ### The statements -/

/-- Settles O14: SELA is the commit of ROMA[k], which for k = 0 puts back what Reset left. -/
theorem selaMakesAPredefinedAlphabetActive : Obligations.SelaMakesAPredefinedAlphabetActive := by
  unfold Obligations.SelaMakesAPredefinedAlphabetActive
  exact ⟨fun k s => ⟨_, exec_sela k s, rfl, rfl, rfl⟩, exec_sela 0#1 State.reset⟩

/-- Settles O15: LDA's tests accept exactly the well-formed tables of 58 cells; the two clauses are the
commit and the error. -/
theorem ldaLoadsExactlyTheWellFormedAlphabets :
    Obligations.LdaLoadsExactlyTheWellFormedAlphabets := by
  unfold Obligations.LdaLoadsExactlyTheWellFormedAlphabets
  intro s
  constructor
  · intro hlen hascii hdistinct
    have hwf := (alphabetWellFormed_ibufTable_iff s).2 ⟨hascii, hdistinct⟩
    exact ⟨_, exec_lda_of_wellFormed hlen hwf, rfl, by simp [State.ibufTable], rfl⟩
  · intro hbad
    apply exec_lda_of_not_wellFormed
    intro hlen hwf
    obtain ⟨hascii, hdistinct⟩ := (alphabetWellFormed_ibufTable_iff s).1 hwf
    obtain hne | ⟨d, hd, hge⟩ | ⟨d, e, hde, he, heq⟩ := hbad
    · exact hne hlen
    · exact absurd (hascii d hd) (by omega)
    · exact hdistinct d e hde he heq

/-- Settles O17: the cell of a symbol keeps its digit, distinct symbols having distinct cells; every
other cell keeps the sentinel. -/
theorem buildDectInvertsTheAlphabet : Obligations.BuildDectInvertsTheAlphabet := by
  unfold Obligations.BuildDectInvertsTheAlphabet
  intro A c hwf
  exact ⟨fun d => buildDect_get_symbol ((alphabetWellFormed_iff A).1 hwf).2, buildDect_get_of_ne⟩

end Sys2Proof.Machine

/-! PROOFS. The cell step of ENC (41_encode.md R89): its two results, then the bounds that keep the
digits and the carries of a pass in range. -/

namespace Sys2Proof.Machine

/-! ### The cell step -/

@[simp] theorem cellStep_fst_val (cell : Digit) (carry : Nat) :
    (cellStep cell carry).1.val = (256 * cell.val + carry) % 58 := rfl

@[simp] theorem cellStep_snd (cell : Digit) (carry : Nat) :
    (cellStep cell carry).2 = (256 * cell.val + carry) / 58 := rfl

/-- The bound of R89 on t: the greatest digit with the greatest carry, 256 × 57 + 255. -/
theorem cellStep_input_le (cell : Digit) {carry : Nat} (hcarry : carry ≤ 255) :
    256 * cell.val + carry ≤ 14847 := by
  have hcell : cell.val ≤ 57 := Nat.le_of_lt_succ cell.isLt
  omega

/-- A carry that comes in as a byte goes out as one: 14847 / 58 = 255, rounded down. -/
theorem cellStep_snd_le (cell : Digit) {carry : Nat} (hcarry : carry ≤ 255) :
    (cellStep cell carry).2 ≤ 255 :=
  Nat.div_le_div_right (c := 58) (cellStep_input_le cell hcarry)

/-! ### The statement -/

/-- Settles O21: the results are those of the cell step's definition; both bounds come from that on t. -/
theorem cellStepStaysInItsBounds : Obligations.CellStepStaysInItsBounds := by
  unfold Obligations.CellStepStaysInItsBounds
  refine ⟨fun b => Nat.le_of_lt_succ b.isLt, fun cell carry hcarry => ?_⟩
  have hdigit : (cellStep cell carry).1.val ≤ 57 := Nat.le_of_lt_succ (cellStep cell carry).1.isLt
  exact ⟨cellStep_input_le cell hcarry, cellStep_fst_val cell carry, cellStep_snd cell carry,
    hdigit, cellStep_snd_le cell hcarry⟩

end Sys2Proof.Machine

/-! PROOFS. DEC's first test and its multiply-add (42_decode.md R101 and R105): the empty string, then
the bounds on one word's t and what a pass over the whole accumulator does to its number. -/

namespace Sys2Proof.Machine

/-! ### The empty string -/

/-- Step 1 of DEC comes before the tables are read (42_decode.md R101). -/
@[simp] theorem decodeString_nil (alpha : Vector Byte 58) (dect : Vector Byte 128) :
    decodeString alpha dect [] = .error .emptyInput := rfl

theorem execDec_of_error {s : State} {e : Err} (hlen : s.inLen.toNat ≤ Config.inMax)
    (he : decodeString s.alpha s.dect s.input = .error e) : execDec s = .next (s.raise e) := by
  simp only [execDec, he, if_neg (Nat.not_lt.2 hlen)]

/-- Settles O30: a string of length 0 passes the length check and fails DEC's step 1. -/
theorem emptyStringIsEmptyInput : Obligations.EmptyStringIsEmptyInput := by
  unfold Obligations.EmptyStringIsEmptyInput
  intro s hzero
  have hlen : s.inLen.toNat = 0 := by rw [hzero]; rfl
  have hempty : decodeString s.alpha s.dect s.input = .error .emptyInput := by
    rw [List.eq_nil_of_length_eq_zero (s.input_length.trans hlen), decodeString_nil]
  exact execDec_of_error (hlen.trans_le (Nat.zero_le _)) hempty

/-! ### The multiply-add -/

/-- The bound of R105 on t: the greatest word with the greatest carry. -/
theorem mulAdd_input_le (w : Word) {c : Nat} (hc : c ≤ 57) :
    w.toNat * 58 + c ≤ 58 * 2 ^ 32 - 1 := by
  have hw : w.toNat < 2 ^ 32 := w.isLt
  omega

/-- A carry that comes in at most 57 goes out so: (58 × 2^32 − 1) / 2^32 = 57, rounded down. -/
theorem mulAdd_carry_le (w : Word) {c : Nat} (hc : c ≤ 57) : (w.toNat * 58 + c) >>> 32 ≤ 57 := by
  rw [Nat.shiftRight_eq_div_pow]
  exact Nat.div_le_div_right (c := 2 ^ 32) (mulAdd_input_le w hc)

/-- The last carry of a pass keeps the bound, each word's carry keeping it. -/
theorem mulAdd_snd_le (j : Nat) {c : Nat} (hc : c ≤ 57) (acc : List Word) :
    (mulAdd j c acc).2 ≤ 57 := by
  induction j generalizing c acc with
  | zero => exact hc
  | succ j ih => exact ih (mulAdd_carry_le _ hc) _

/-- A pass over the whole accumulator maps its number v to 58 v + c, the last carry counting
2^(32 W) (42_decode.md R105). -/
theorem valWords_mulAdd (c : Nat) (acc : List Word) :
    valWords (mulAdd acc.length c acc).1 + (mulAdd acc.length c acc).2 * 2 ^ (32 * acc.length) =
      58 * valWords acc + c := by
  have hwhole : (mulAdd acc.length c acc).1.take acc.length = (mulAdd acc.length c acc).1 :=
    List.take_of_length_le (mulAdd_length _ _ _).le
  have hvalue := mulAdd_value acc.length c acc le_rfl
  rwa [hwhole, List.take_length, ← pow_mul] at hvalue

/-- The new number is what fits of 58 v + c, W words denoting a number below 2^(32 W). -/
theorem valWords_mulAdd_mod (c : Nat) (acc : List Word) :
    valWords (mulAdd acc.length c acc).1 = (58 * valWords acc + c) % 2 ^ (32 * acc.length) := by
  have hfits : valWords (mulAdd acc.length c acc).1 < 2 ^ (32 * acc.length) := by
    simpa only [mulAdd_length, ← pow_mul] using valWords_lt (mulAdd acc.length c acc).1
  rw [← valWords_mulAdd, Nat.add_mul_mod_self_right, Nat.mod_eq_of_lt hfits]

/-- Settles O31: the bounds are those of one word and, carried through the pass, of its last carry;
the number is that of the whole pass, read exactly and modulo 2^(32 W). -/
theorem multiplyAddIsExact : Obligations.MultiplyAddIsExact := by
  unfold Obligations.MultiplyAddIsExact
  constructor
  · intro w c hc
    have ht := mulAdd_input_le w hc
    exact ⟨ht, by omega, mulAdd_carry_le w hc⟩
  · intro acc d hd
    exact ⟨mulAdd_length _ _ _, mulAdd_snd_le _ hd acc, valWords_mulAdd d acc,
      valWords_mulAdd_mod d acc⟩

end Sys2Proof.Machine

/-! PROOFS. The length check of the commands (60_exceptions.md R147): what ENC and DEC answer before they
read IBUF, and IN_LEN as what SELA carries along. -/

namespace Sys2Proof.Machine

/-- ENC's length check comes before any cell of IBUF is read. -/
theorem execEnc_of_gt_inMax {s : State} (h : Config.inMax < s.inLen.toNat) :
    execEnc s = .next (s.raise .lengthRange) :=
  if_pos h

/-- DEC's length check comes before any cell of IBUF is read. -/
theorem execDec_of_gt_inMax {s : State} (h : Config.inMax < s.inLen.toNat) :
    execDec s = .next (s.raise .lengthRange) :=
  if_pos h

/-- The commit of a table pair carries IN_LEN along and does not read it. -/
theorem State.commitAlphabet_setInLen (s : State) (n : BitVec 16) (A : Vector Byte 58) :
    ({ s with inLen := n } : State).commitAlphabet A =
      { s.commitAlphabet A with inLen := n } := rfl

/-- Settles O32: ENC and DEC fail their length check; for LDA a length above 256 is not 58; SELA is the
commit of a predefined table, into which IN_LEN does not enter. -/
theorem lengthAboveTheCapacityIsRefused : Obligations.LengthAboveTheCapacityIsRefused := by
  unfold Obligations.LengthAboveTheCapacityIsRefused
  intro s hlen
  have hnot58 : s.inLen.toNat ≠ 58 := by omega
  refine ⟨execEnc_of_gt_inMax hlen, execDec_of_gt_inMax hlen,
    exec_lda_of_not_wellFormed fun h58 => absurd h58 hnot58, fun k n => ?_⟩
  refine ⟨s.commitAlphabet (Config.roma k), exec_sela k s, s.commitAlphabet_err _, ?_⟩
  rw [exec_sela, State.commitAlphabet_setInLen]

end Sys2Proof.Machine

/-! PROOFS. ENC (41_encode.md R86 to R98) against the reference encoder
(43_reference_and_properties.md R122): the main loop keeps the number of the bytes read so far, the
working buffer is large enough for it, so that the string is RefEncode's; then the lengths, and the
statements about ENC that follow. -/

namespace Sys2Proof.Machine

/-! ### The main loop -/

/-- A pass over the whole working buffer maps its number v to 256 v + c, the carry out of WB[0]
counting 58^S (41_encode.md R89). -/
theorem val58_fullPass (c : Nat) (wb : List Digit) :
    val58 (fullPass wb.length c wb).1 + (fullPass wb.length c wb).2 * 58 ^ wb.length =
      256 * val58 wb + c := by
  have hwhole : (fullPass wb.length c wb).1.take wb.length = (fullPass wb.length c wb).1 :=
    List.take_of_length_le (fullPass_length _ _ _).le
  have hvalue := fullPass_value wb.length c wb le_rfl
  rwa [hwhole, List.take_length] at hvalue

/-- No carry leaves WB[0] while the new number fits the buffer (41_encode.md R95). -/
theorem fullPass_snd_eq_zero {c : Nat} {wb : List Digit}
    (hfit : 256 * val58 wb + c < 58 ^ wb.length) : (fullPass wb.length c wb).2 = 0 := by
  have hvalue := val58_fullPass c wb
  by_contra hcarry
  have := Nat.le_mul_of_pos_left (58 ^ wb.length) (Nat.pos_of_ne_zero hcarry)
  omega

theorem val58_fullPass_of_fits {c : Nat} {wb : List Digit}
    (hfit : 256 * val58 wb + c < 58 ^ wb.length) :
    val58 (fullPass wb.length c wb).1 = 256 * val58 wb + c := by
  simpa [fullPass_snd_eq_zero hfit] using val58_fullPass c wb

/-- The number after all bytes fits, so the number after the first does. -/
theorem fits_after_first {b : Byte} {bs : List Byte} {v m : Nat}
    (hfit : v * 256 ^ (b :: bs).length + val256 (b :: bs) < m) : 256 * v + b.toNat < m := by
  have hpow : 1 ≤ 256 ^ bs.length := Nat.one_le_pow _ _ (by norm_num)
  rw [val256_cons, List.length_cons, pow_succ] at hfit
  nlinarith

/-- The number after all bytes, computed from the number after the first. -/
theorem number_after_first (b : Byte) (bs : List Byte) (v : Nat) :
    v * 256 ^ (b :: bs).length + val256 (b :: bs) =
      (256 * v + b.toNat) * 256 ^ bs.length + val256 bs := by
  rw [val256_cons, List.length_cons]
  ring

theorem absorbFull_length (bs : List Byte) (wb : List Digit) :
    (absorbFull bs wb).length = wb.length := by
  induction bs generalizing wb with
  | nil => rfl
  | cons b bs ih => rw [absorbFull, ih, fullPass_length]

/-- Full passes append the bytes to the number, base 256, while the result fits the buffer. -/
theorem val58_absorbFull (bs : List Byte) (wb : List Digit)
    (hfit : val58 wb * 256 ^ bs.length + val256 bs < 58 ^ wb.length) :
    val58 (absorbFull bs wb) = val58 wb * 256 ^ bs.length + val256 bs := by
  induction bs generalizing wb with
  | nil => simp [absorbFull, val256]
  | cons b bs ih =>
    have hfirst := val58_fullPass_of_fits (fits_after_first hfit)
    rw [number_after_first] at hfit ⊢
    rw [absorbFull, ih _ (by rwa [hfirst, fullPass_length]), hfirst]

/-- The loop with the water mark is the loop with full passes, where the cells above the mark are
zero and the result fits the buffer (41_encode.md R91, R95). -/
theorem absorb_eq_absorbFull (bs : List Byte) (high : Nat) (wb : List Digit)
    (hzero : ∀ j, j < high → wb.getD j 0 = 0)
    (hfit : val58 wb * 256 ^ bs.length + val256 bs < 58 ^ wb.length) :
    absorb bs high wb = some (absorbFull bs wb) := by
  induction bs generalizing high wb with
  | nil => rfl
  | cons b bs ih =>
    have hone := fits_after_first hfit
    obtain ⟨high', hloop, hzero'⟩ := carryLoop_eq high wb.length b.toNat wb
      (fun j hj _ => hzero j hj) (fullPass_snd_eq_zero hone)
    rw [number_after_first] at hfit
    simp only [absorb, hloop, absorbFull]
    exact ih high' _ hzero' (by rwa [val58_fullPass_of_fits hone, fullPass_length])

/-! ### The working buffer is large enough -/

/-- Leading zero bytes do not count (43_reference_and_properties.md R121). -/
theorem val256_drop_leadingRun (bin : List Byte) :
    val256 (bin.drop (leadingRun 0#8 bin)) = val256 bin := by
  rw [drop_leadingRun, val256_minBytes]

theorem val256_lt_of_leadingRun (bin : List Byte) :
    val256 bin < 256 ^ (bin.length - leadingRun 0#8 bin) := by
  simpa [val256_drop_leadingRun] using val256_lt (bin.drop (leadingRun 0#8 bin))

/-- The ratio 138/100 is enough because 256^100 is at most 58^138 (41_encode.md R87, R95). -/
theorem pow_256_lt_pow_workSize (n : Nat) : 256 ^ n < 58 ^ workSize n := by
  have hratio : 256 ^ 100 ≤ 58 ^ 138 := by norm_num
  have hsize : 138 * n < workSize n * 100 := by unfold workSize; omega
  refine lt_of_pow_lt_pow_left₀ 100 (Nat.zero_le _) ?_
  calc (256 ^ n) ^ 100 = (256 ^ 100) ^ n := by rw [← pow_mul, ← pow_mul, mul_comm]
    _ ≤ (58 ^ 138) ^ n := Nat.pow_le_pow_left hratio n
    _ = 58 ^ (138 * n) := by rw [← pow_mul]
    _ < 58 ^ (workSize n * 100) := Nat.pow_lt_pow_right (by norm_num) hsize
    _ = (58 ^ workSize n) ^ 100 := by rw [pow_mul]

theorem val256_lt_pow_workSize (bin : List Byte) :
    val256 bin < 58 ^ workSize (bin.length - leadingRun 0#8 bin) :=
  (val256_lt_of_leadingRun bin).trans (pow_256_lt_pow_workSize _)

/-- The cells of the buffer that ENC starts with are zero (41_encode.md R88). -/
theorem zeros_getD (n j : Nat) : (List.replicate n (0 : Digit)).getD j 0 = 0 := by
  simp [List.getD_eq_getElem?_getD, List.getElem?_replicate]
  split_ifs <;> rfl

/-- The number of the bytes, which ENC brings into that buffer, fits it. -/
theorem zeros_fit (bin : List Byte) :
    val58 (List.replicate (workSize (bin.length - leadingRun 0#8 bin)) 0) * 256 ^ bin.length +
        val256 bin <
      58 ^ (List.replicate (workSize (bin.length - leadingRun 0#8 bin)) (0 : Digit)).length := by
  simpa [val58_zeros] using val256_lt_pow_workSize bin

/-- ENC's loop loses no carry and is the loop with full passes (41_encode.md R91, R95). -/
theorem encodeDigits_eq_absorbFull (bin : List Byte) :
    encodeDigits bin =
      some (absorbFull bin
        (List.replicate (workSize (bin.length - leadingRun 0#8 bin)) 0)) :=
  absorb_eq_absorbFull _ _ _ (fun j _ => zeros_getD _ j) (zeros_fit bin)

/-- The number in the working buffer is the number of the bytes. -/
theorem val58_encodeDigits {bin : List Byte} {wb : List Digit} (h : encodeDigits bin = some wb) :
    val58 wb = val256 bin := by
  obtain rfl := Option.some.inj ((encodeDigits_eq_absorbFull bin).symm.trans h)
  rw [val58_absorbFull _ _ (zeros_fit bin), val58_zeros, Nat.zero_mul, Nat.zero_add]

/-- Settles O22: each pass keeps the number, which the buffer holds, so no carry is lost and the
water mark skips only zero cells. -/
theorem waterMarkIsInvisible : Obligations.WaterMarkIsInvisible := by
  unfold Obligations.WaterMarkIsInvisible
  intro bin S
  have hloop : encodeDigits bin = some (absorbFull bin (List.replicate S 0)) :=
    encodeDigits_eq_absorbFull bin
  exact ⟨hloop, by rw [absorbFull_length, List.length_replicate], val58_encodeDigits hloop⟩

/-! ### The string -/

/-- The cells that ENC emits are the shortest digit sequence of their number (41_encode.md R92). -/
theorem skipZeroDigits_eq_digits58 (wb : List Digit) : skipZeroDigits wb = digits58 (val58 wb) := by
  rw [← skip_val, digits58_val58 _ (skip_head wb)]

/-- ENC's string is RefEncode's, for bytes of any number (43_reference_and_properties.md R129). -/
theorem encodeString_eq_refEncode (A : Vector Byte 58) (bin : List Byte) :
    encodeString A bin = some (refEncode A bin) := by
  obtain ⟨wb, hwb⟩ : ∃ wb, encodeDigits bin = some wb := ⟨_, encodeDigits_eq_absorbFull bin⟩
  simp only [encodeString, hwb]
  rw [skipZeroDigits_eq_digits58, val58_encodeDigits hwb, refEncode_eq]
  rfl

/-- ENC within the length limit commits the string of RefEncode. -/
theorem execEnc_of_le_inMax {s : State} (h : s.inLen.toNat ≤ Config.inMax) :
    execEnc s = .next (s.commitResult (refEncode s.alpha s.input)) := by
  simp only [execEnc, encodeString_eq_refEncode, if_neg (Nat.not_lt.2 h)]

/-! ### The length of the string -/

theorem digits58_length_le_iff (v n : Nat) : (digits58 v).length ≤ n ↔ v < 58 ^ n := by
  simp only [digits58, List.length_reverse, List.length_map]
  exact Nat.digits_length_le_iff (by norm_num) v

theorem refEncode_length (A : Vector Byte 58) (bin : List Byte) :
    (refEncode A bin).length = leadingRun 0#8 bin + (digits58 (val256 bin)).length := by
  simp [refEncode_eq]

theorem pow_le_val256_cons {b : Byte} (hb : b ≠ 0#8) (bs : List Byte) :
    256 ^ bs.length ≤ val256 (b :: bs) := by
  have hpos : 0 < b.toNat := Nat.pos_of_ne_zero fun h => hb (BitVec.eq_of_toNat_eq h)
  rw [val256_cons]
  exact (Nat.le_mul_of_pos_left _ hpos).trans (Nat.le_add_right _ _)

/-- What follows the leading zero bytes needs at least one digit a byte: its first byte is not zero,
and a digit holds less than a byte. -/
theorem length_sub_leadingRun_le_digits58 (bin : List Byte) :
    bin.length - leadingRun 0#8 bin ≤ (digits58 (val256 bin)).length := by
  rw [← val256_drop_leadingRun, ← List.length_drop]
  have hhead := (leadingRun_split 0#8 bin).2
  cases hrest : bin.drop (leadingRun 0#8 bin) with
  | nil => exact Nat.zero_le _
  | cons b bs =>
    have hb : b ≠ 0#8 := by simpa [hrest] using hhead
    have hlow : 58 ^ bs.length ≤ 256 ^ bs.length := Nat.pow_le_pow_left (by norm_num) _
    refine Nat.lt_of_not_le fun hshort => ?_
    have hlt := (digits58_length_le_iff _ _).1 hshort
    exact absurd hlt (Nat.not_lt.2 (hlow.trans (pow_le_val256_cons hb bs)))

theorem length_le_refEncode_length (A : Vector Byte 58) (bin : List Byte) :
    bin.length ≤ (refEncode A bin).length := by
  have hdigits := length_sub_leadingRun_le_digits58 bin
  rw [refEncode_length]
  omega

/-- The leading zeros take one symbol each, the rest at most the working buffer (41_encode.md R98).
-/
theorem refEncode_length_le (A : Vector Byte 58) (bin : List Byte) :
    (refEncode A bin).length ≤ bin.length * 138 / 100 + 1 := by
  have hdigits := digits58_length_le _ _ (val256_lt_pow_workSize bin)
  have hrun := leadingRun_le 0#8 bin
  rw [refEncode_length]
  unfold workSize at hdigits
  omega

theorem refEncode_length_le_outMax (A : Vector Byte 58) {bin : List Byte}
    (h : bin.length ≤ Config.inMax) : (refEncode A bin).length ≤ Config.outMax := by
  have hlen := refEncode_length_le A bin
  simp only [Config.inMax, Config.outMax] at h ⊢
  omega

/-! ### What a commit leaves -/

theorem State.outLen_commitResult_toNat (s : State) {out : List Byte} (h : out.length < 65536) :
    (s.commitResult out).outLen.toNat = out.length := by
  simpa using h

theorem refEncode_input_length_lt {s : State} (h : s.inLen.toNat ≤ 256) :
    (refEncode s.alpha s.input).length < 65536 :=
  Nat.lt_of_le_of_lt (refEncode_length_le_outMax _ (s.input_length.trans_le h)) (by norm_num)

/-- An outcome has at most one next state. -/
theorem next_unique {o : Host.Outcome State Fault Refusal} {t t' : State} (h : o = .next t)
    (h' : o = .next t') : t = t' :=
  Host.Outcome.next.inj (h.symm.trans h')

/-- What ENC leaves within the length limit (43_reference_and_properties.md R129). -/
theorem of_exec_enc {s t : State} (h : s.inLen.toNat ≤ 256) (hexec : exec .enc s = .next t) :
    t.err = 0#4 ∧ t.outLen.toNat = (refEncode s.alpha s.input).length ∧
      t.output = refEncode s.alpha s.input := by
  have hlen := refEncode_input_length_lt h
  obtain rfl := next_unique hexec (execEnc_of_le_inMax h)
  exact ⟨rfl, s.outLen_commitResult_toNat hlen, s.output_commitResult _ hlen⟩

/-! ### The statements -/

/-- Settles O23: ENC commits RefEncode's string, which is short enough for OUT_LEN. -/
theorem encodeEqualsTheReferenceEncoder : Obligations.EncodeEqualsTheReferenceEncoder := by
  unfold Obligations.EncodeEqualsTheReferenceEncoder
  intro s h
  have hexec : exec .enc s = .next (s.commitResult (refEncode s.alpha s.input)) :=
    execEnc_of_le_inMax h
  exact ⟨_, hexec, of_exec_enc h hexec⟩

/-- Settles O24: the bounds of RefEncode's string, N being the number of bytes. -/
theorem encodeOutputLengthIsBounded : Obligations.EncodeOutputLengthIsBounded := by
  unfold Obligations.EncodeOutputLengthIsBounded
  intro s t h hexec
  obtain ⟨-, hlen, -⟩ := of_exec_enc h hexec
  have hlow := length_le_refEncode_length s.alpha s.input
  have hhigh := refEncode_length_le s.alpha s.input
  rw [s.input_length] at hlow hhigh
  omega

end Sys2Proof.Machine

/-! PROOFS. Leading zeros and alphabets of what ENC gives (41_encode.md R97,
43_reference_and_properties.md R128, R130, R132, R137), from RefEncode in closed form. -/

namespace Sys2Proof.Machine

/-! ### The digits of a string -/

/-- The digits of RefEncode's string, which no alphabet enters. -/
def refDigits (bin : List Byte) : List Digit :=
  List.replicate (leadingRun 0#8 bin) 0 ++ digits58 (val256 bin)

theorem refEncode_eq_map_refDigits (A : Vector Byte 58) (bin : List Byte) :
    refEncode A bin = (refDigits bin).map A.get := by
  rw [refEncode_eq, refDigits, List.map_append, List.map_replicate]

theorem leadingRun_replicate_append (z : Byte) (n : Nat) (bs : List Byte) :
    leadingRun z (List.replicate n z ++ bs) = n + leadingRun z bs := by
  induction n with
  | zero => simp
  | succ n ih => simp [List.replicate_succ, leadingRun, ih]; omega

theorem leadingRun_cons_of_ne {z b : Byte} (h : b ≠ z) (bs : List Byte) :
    leadingRun z (b :: bs) = 0 :=
  if_neg h

theorem leadingRun_eq_zero_iff (z : Byte) (bs : List Byte) :
    leadingRun z bs = 0 ↔ bs.head? ≠ some z := by
  cases bs with
  | nil => simp [leadingRun]
  | cons b bs => simp [leadingRun]

theorem val256_zeros_append (n : Nat) (bs : List Byte) :
    val256 (List.replicate n 0#8 ++ bs) = val256 bs := by
  rw [val256_append, val256_zeros, Nat.zero_mul, Nat.zero_add]

/-- Leading zero bytes are leading zero symbols (43_reference_and_properties.md R128). -/
theorem refEncode_zeros_append (A : Vector Byte 58) (n : Nat) (bs : List Byte) :
    refEncode A (List.replicate n 0#8 ++ bs) =
      List.replicate n (A.get 0) ++ refEncode A bs := by
  rw [refEncode_eq, refEncode_eq, leadingRun_replicate_append, val256_zeros_append,
    List.replicate_add, List.append_assoc]

theorem refEncode_nil (A : Vector Byte 58) : refEncode A [] = [] := rfl

theorem refEncode_zeros (A : Vector Byte 58) (n : Nat) :
    refEncode A (List.replicate n 0#8) = List.replicate n (A.get 0) := by
  simpa [refEncode_nil] using refEncode_zeros_append A n []

/-- Digits58 has no leading zero digit (00_scope.md R9). -/
theorem digits58_head_ne_zero (v : Nat) (d : Digit) (h : (digits58 v).head? = some d) : d ≠ 0 := by
  rw [digits58, List.head?_reverse, List.getLast?_map, Option.map_eq_some_iff] at h
  obtain ⟨n, hlast, rfl⟩ := h
  obtain ⟨hne, hn⟩ := List.mem_getLast?_eq_getLast hlast
  have hv : v ≠ 0 := Nat.digits_ne_nil_iff_ne_zero.1 hne
  have hn0 : n ≠ 0 := hn.symm ▸ Nat.getLast_digit_ne_zero 58 hv
  have hn58 : n < 58 := Nat.digits_lt_base (by norm_num) (List.mem_of_getLast? hlast)
  intro hzero
  exact hn0 (by simpa [toDigit, Nat.mod_eq_of_lt hn58] using congrArg Fin.val hzero)

/-- The string of a nonzero-led sequence begins with a symbol other than the zero symbol. -/
theorem refEncode_cons_of_ne {A : Vector Byte 58} (hA : ∀ d e : Digit, A.get d = A.get e → d = e)
    {b : Byte} (hb : b ≠ 0#8) (bs : List Byte) :
    ∃ c cs, refEncode A (b :: bs) = c :: cs ∧ c ≠ A.get 0 := by
  have hlen := length_sub_leadingRun_le_digits58 (b :: bs)
  rw [leadingRun_cons_of_ne hb] at hlen
  rw [refEncode_eq, leadingRun_cons_of_ne hb]
  cases hd : digits58 (val256 (b :: bs)) with
  | nil => simp [hd] at hlen
  | cons d ds =>
    refine ⟨A.get d, ds.map A.get, rfl, fun heq => ?_⟩
    exact digits58_head_ne_zero _ d (by rw [hd]; rfl) (hA d 0 heq)

/-! ### The statements -/

theorem State.input_eq_nil {s : State} (h : s.inLen = 0#16) : s.input = [] := by
  simp [State.input, h]

/-- An input of equal cells. -/
theorem State.input_eq_replicate {s : State} {b : Byte}
    (h : ∀ k, k < s.inLen.toNat → s.ibufCell k = b) :
    s.input = List.replicate s.inLen.toNat b := by
  refine List.eq_replicate_iff.2 ⟨s.input_length, fun c hc => ?_⟩
  obtain ⟨k, hk, rfl⟩ := List.mem_map.1 hc
  exact h k (List.mem_range.1 hk)

/-- The cells of a result of equal cells. -/
theorem State.obufCell_commitResult_replicate (s : State) {n k : Nat} (b : Byte) (hk : k < n) :
    (s.commitResult (List.replicate n b)).obufCell k = b := by
  rw [s.obufCell_commitResult_inside _ k (by simpa using hk), List.getElem_replicate]

/-- OUT_LEN of a result as long as the input. -/
theorem State.outLen_commitResult_replicate (s : State) (b : Byte) :
    (s.commitResult (List.replicate s.inLen.toNat b)).outLen = s.inLen := by
  simp

/-- Settles O25: an all-zero input has RefEncode's string of as many zero symbols; that of the empty
one is empty, and its commit writes no cell. -/
theorem encodeOfZeroBytesIsZeroSymbols : Obligations.EncodeOfZeroBytesIsZeroSymbols := by
  unfold Obligations.EncodeOfZeroBytesIsZeroSymbols
  constructor
  · intro s hzero
    have hexec := execEnc_of_le_inMax (s := s) (by simp [hzero])
    rwa [State.input_eq_nil hzero, refEncode_nil] at hexec
  · intro s hlen hcells
    have hexec := execEnc_of_le_inMax hlen
    rw [State.input_eq_replicate hcells, refEncode_zeros] at hexec
    exact ⟨_, hexec, rfl, s.outLen_commitResult_replicate _,
      fun _ => s.obufCell_commitResult_replicate _⟩

/-- Settles O26: RefEncode turns the zero bytes before a sequence into zero symbols before its
string, which begins with a nonzero digit. -/
theorem leadingZeroBytesArePreserved : Obligations.LeadingZeroBytesArePreserved := by
  unfold Obligations.LeadingZeroBytesArePreserved
  intro s K b B hinv hlen hinput hb
  obtain ⟨c, cs, hstring, hc⟩ := refEncode_cons_of_ne hinv.distinct hb B
  have hexec : exec .enc s = .next _ := execEnc_of_le_inMax hlen
  obtain ⟨herr, -, hout⟩ := of_exec_enc hlen hexec
  refine ⟨_, c, cs, hexec, herr, ?_, hc, hstring⟩
  rw [hout, hinput, refEncode_zeros_append, hstring]

/-- Settles O27: the digits are those of RefEncode's string, which depend on the bytes alone. -/
theorem encodingUnderTwoAlphabetsHasTheSameDigits :
    Obligations.EncodingUnderTwoAlphabetsHasTheSameDigits := by
  unfold Obligations.EncodingUnderTwoAlphabetsHasTheSameDigits
  intro s s' t t' hlen hinput hexec hexec'
  have hlen' : s'.inLen.toNat ≤ 256 := by
    rwa [← s'.input_length, hinput, s.input_length]
  obtain ⟨-, -, hout⟩ := of_exec_enc hlen hexec
  obtain ⟨-, -, hout'⟩ := of_exec_enc hlen' hexec'
  refine ⟨refDigits s.input, ?_, ?_⟩
  · rw [hout, refEncode_eq_map_refDigits]
  · rw [hout', hinput, refEncode_eq_map_refDigits]

end Sys2Proof.Machine

/-! PROOFS. The two lookups of an alphabet (40_alphabet.md R71, R72), and the strings that
RefDecode's fold accepts (43_reference_and_properties.md R123): each is leading zero symbols and
then the symbols of the shortest digit sequence of its number. -/

namespace Sys2Proof.Machine

/-! ### The lookups -/

/-- A DECT cell holds a digit value in two's complement as it does unsigned. -/
theorem toNat_eq_of_toInt_eq {b : Byte} {n : Nat} (h : b.toInt = n) : b.toNat = n := by
  have hb : b.toNat < 2 ^ 8 := b.isLt
  rw [BitVec.toInt_eq_toNat_cond] at h
  split_ifs at h <;> omega

theorem toInt_eq_neg_one_iff (b : Byte) : b.toInt = -1 ↔ b = 0xFF#8 := by
  rw [show (-1 : Int) = (0xFF#8).toInt by decide, BitVec.toInt_inj]

/-- decode_digit has no answer for a non-ASCII cell and where DECT holds the sentinel
(40_alphabet.md R71). -/
theorem decodeDigit_eq_none_iff (T : Vector Byte 128) (c : Byte) :
    decodeDigit T c = none ↔ ∀ h : c.toNat < 128, T.get ⟨c.toNat, h⟩ = 0xFF#8 := by
  unfold decodeDigit
  by_cases h : c.toNat < 128
  · simp [h, toInt_eq_neg_one_iff]
  · simp [h]

theorem symbolDigit_eq_none_iff (A : Vector Byte 58) (c : Byte) :
    symbolDigit A c = none ↔ ∀ d : Digit, A.get d ≠ c := by
  simp [symbolDigit]

theorem get_of_symbolDigit {A : Vector Byte 58} {c : Byte} {d : Digit}
    (h : symbolDigit A c = some d) : A.get d = c := by
  simpa using List.find?_some h

theorem symbolDigit_get {A : Vector Byte 58} (hA : ∀ d e : Digit, A.get d = A.get e → d = e)
    (d : Digit) : symbolDigit A (A.get d) = some d := by
  cases h : symbolDigit A (A.get d) with
  | none => exact absurd rfl ((symbolDigit_eq_none_iff A _).1 h d)
  | some e => rw [hA e d (get_of_symbolDigit h)]

section Lookups

variable {A : Vector Byte 58} {T : Vector Byte 128} (hinv : AlphabetInv A T)
include hinv

theorem decodeDigit_get (d : Digit) : decodeDigit T (A.get d) = some d.val := by
  have hcell := hinv.inverse d
  have hne : ¬(T.get ⟨(A.get d).toNat, hinv.ascii d⟩).toInt = -1 := by omega
  simp only [decodeDigit, dif_pos (hinv.ascii d), if_neg hne, toNat_eq_of_toInt_eq hcell]

theorem decodeDigit_of_foreign {c : Byte} (hc : ∀ d : Digit, A.get d ≠ c) :
    decodeDigit T c = none := by
  refine (decodeDigit_eq_none_iff T c).2 fun h => (toInt_eq_neg_one_iff _).1 ?_
  exact hinv.elsewhere ⟨c.toNat, h⟩ fun d hd => hc d (BitVec.eq_of_toNat_eq hd)

/-- Under the invariant DECT answers the position in the alphabet's order (log entry 12). -/
theorem decodeDigit_eq_symbolDigit (c : Byte) :
    decodeDigit T c = (symbolDigit A c).map Fin.val := by
  cases h : symbolDigit A c with
  | none => exact decodeDigit_of_foreign hinv ((symbolDigit_eq_none_iff A c).1 h)
  | some d =>
    obtain rfl := get_of_symbolDigit h
    exact decodeDigit_get hinv d

end Lookups

/-- Settles O18: DECT answers a symbol's position in the alphabet, and nothing for a foreign cell.
-/
theorem symbolAndDigitLookupsAreInverse : Obligations.SymbolAndDigitLookupsAreInverse := by
  unfold Obligations.SymbolAndDigitLookupsAreInverse
  intro A T hinv
  refine ⟨decodeDigit_get hinv, fun c n h => ?_, fun c => ?_⟩
  · rw [decodeDigit_eq_symbolDigit hinv, Option.map_eq_some_iff] at h
    obtain ⟨d, hd, hn⟩ := h
    exact ⟨d, hn, get_of_symbolDigit hd⟩
  · rw [decodeDigit_eq_symbolDigit hinv, Option.map_eq_none_iff, symbolDigit_eq_none_iff]

/-! ### The fold of RefDecode -/

section Fold

variable {A : Vector Byte 58}

theorem refFold_cons_none {c : Byte} (h : symbolDigit A c = none) (cs : List Byte) (v : Nat) :
    refFold A (c :: cs) v = none := by
  simp only [refFold, h]

theorem refFold_cons_some {c : Byte} {d : Digit} (h : symbolDigit A c = some d) (cs : List Byte)
    (v : Nat) : refFold A (c :: cs) v = refFold A cs (v * 58 + d.val) := by
  simp only [refFold, h]

/-- The fold fails exactly at a foreign cell (43_reference_and_properties.md R123). -/
theorem refFold_eq_none_iff (str : List Byte) (v : Nat) :
    refFold A str v = none ↔ ∃ c ∈ str, symbolDigit A c = none := by
  induction str generalizing v with
  | nil => simp [refFold]
  | cons c cs ih =>
    cases h : symbolDigit A c with
    | none => simp [refFold_cons_none h, h]
    | some d => simp [refFold_cons_some h, ih, h]

/-- What the fold accepts are symbols; it appends their digits to the number, base 58. -/
theorem digits_of_refFold {str : List Byte} {v n : Nat} (h : refFold A str v = some n) :
    ∃ ds : List Digit, str = ds.map A.get ∧ n = v * 58 ^ ds.length + val58 ds := by
  induction str generalizing v with
  | nil =>
    obtain rfl := Option.some.inj h
    exact ⟨[], rfl, by simp [val58]⟩
  | cons c cs ih =>
    cases hd : symbolDigit A c with
    | none => simp [refFold_cons_none hd] at h
    | some d =>
      rw [refFold_cons_some hd] at h
      obtain ⟨ds, rfl, rfl⟩ := ih h
      refine ⟨d :: ds, by rw [List.map_cons, get_of_symbolDigit hd], ?_⟩
      rw [val58_cons, List.length_cons]
      ring

variable (hA : ∀ d e : Digit, A.get d = A.get e → d = e)
include hA

theorem refFold_map_get (ds : List Digit) (v : Nat) :
    refFold A (ds.map A.get) v = some (v * 58 ^ ds.length + val58 ds) := by
  induction ds generalizing v with
  | nil => simp [refFold, val58]
  | cons d ds ih =>
    rw [List.map_cons, refFold_cons_some (symbolDigit_get hA d), ih, val58_cons, List.length_cons]
    congr 1
    ring

/-- Leading zero symbols contribute nothing (43_reference_and_properties.md R121). -/
theorem refFold_zeros_append (n : Nat) (str : List Byte) :
    refFold A (List.replicate n (A.get 0) ++ str) 0 = refFold A str 0 := by
  induction n with
  | zero => rfl
  | succ n ih =>
    rw [List.replicate_succ, List.cons_append, refFold_cons_some (symbolDigit_get hA 0)]
    exact ih

/-- An accepted string is its leading zero symbols and the symbols of Digits58 of its number. -/
theorem eq_zeros_append_digits58_of_refFold {str : List Byte} {v : Nat}
    (h : refFold A str 0 = some v) :
    str = List.replicate (leadingRun (A.get 0) str) (A.get 0) ++ (digits58 v).map A.get := by
  obtain ⟨hsplit, hhead⟩ := leadingRun_split (A.get 0) str
  rw [hsplit, refFold_zeros_append hA] at h
  obtain ⟨ds, hds, rfl⟩ := digits_of_refFold h
  have hlead : ∀ d, ds.head? = some d → d ≠ 0 := by
    rintro d hd rfl
    simp [hds, hd] at hhead
  rw [Nat.zero_mul, Nat.zero_add, digits58_val58 ds hlead, ← hds]
  exact hsplit

/-- The digits after the leading zero symbols bound the number (42_decode.md R110, R111). -/
theorem lt_pow_of_refFold {str : List Byte} {v : Nat} (h : refFold A str 0 = some v) :
    v < 58 ^ (str.length - leadingRun (A.get 0) str) := by
  have hlen := congrArg List.length (eq_zeros_append_digits58_of_refFold hA h)
  rw [List.length_append, List.length_replicate, List.length_map] at hlen
  exact (digits58_length_le_iff _ _).1 (by omega)

/-- The same bound in bytes, a byte holding more than a digit. -/
theorem lt_pow_256_of_refFold {str : List Byte} {v : Nat} (h : refFold A str 0 = some v) :
    v < 256 ^ (str.length - leadingRun (A.get 0) str) :=
  (lt_pow_of_refFold hA h).trans_le (Nat.pow_le_pow_left (by norm_num) _)

end Fold

/-! ### RefDecode -/

/-- RefDecode in closed form (43_reference_and_properties.md R123). -/
theorem refDecode_eq (A : Vector Byte 58) (str : List Byte) :
    refDecode A str = (refFold A str 0).map fun v =>
      List.replicate (leadingRun (A.get 0) str) 0#8 ++ minBytes v := by
  rw [refDecode, takeWhile_run]
  cases refFold A str 0 <;> rfl

theorem refDecode_eq_some_iff {A : Vector Byte 58} {str out : List Byte} :
    refDecode A str = some out ↔ ∃ v, refFold A str 0 = some v ∧
      List.replicate (leadingRun (A.get 0) str) 0#8 ++ minBytes v = out := by
  rw [refDecode_eq, Option.map_eq_some_iff]

/-- RefDecode fails exactly at a foreign cell. -/
theorem refDecode_eq_none_iff {A : Vector Byte 58} {str : List Byte} :
    refDecode A str = none ↔ ∃ c ∈ str, symbolDigit A c = none := by
  rw [refDecode_eq, Option.map_eq_none_iff, refFold_eq_none_iff]

/-- The number of Digits58. -/
theorem val58_digits58 (v : Nat) : val58 (digits58 v) = v := by
  have hsmall : ∀ n ∈ Nat.digits 58 v, (toDigit n).val = n :=
    fun n hn => Nat.mod_eq_of_lt (Nat.digits_lt_base (by norm_num) hn)
  have hdigits : (Nat.digits 58 v).map (Fin.val ∘ toDigit) = Nat.digits 58 v :=
    (List.map_congr_left hsmall).trans (List.map_id' _)
  rw [val58_ofDigits, digits58, List.map_reverse, List.reverse_reverse, List.map_map, hdigits,
    Nat.ofDigits_digits]

section RoundTrips

variable {A : Vector Byte 58} (hA : ∀ d e : Digit, A.get d = A.get e → d = e)
include hA

theorem refDecode_length_le {str out : List Byte} (h : refDecode A str = some out) :
    out.length ≤ str.length := by
  obtain ⟨v, hv, rfl⟩ := refDecode_eq_some_iff.1 h
  have hbytes := minBytes_length_le v _ (lt_pow_256_of_refFold hA hv)
  have hrun := leadingRun_le (A.get 0) str
  rw [List.length_append, List.length_replicate]
  omega

/-- RefDecode turns zero symbols into as many zero bytes. -/
theorem refDecode_zeros (n : Nat) :
    refDecode A (List.replicate n (A.get 0)) = some (List.replicate n 0#8) := by
  have hfold : refFold A (List.replicate n (A.get 0)) 0 = some 0 := by
    simpa [refFold] using refFold_zeros_append hA n []
  have hrun := leadingRun_replicate_append (A.get 0) n []
  rw [List.append_nil] at hrun
  rw [refDecode_eq, hfold, hrun]
  simp [leadingRun, minBytes]

/-- No zero symbol follows the leading ones in RefEncode's string. -/
theorem leadingRun_refEncode (bin : List Byte) :
    leadingRun (A.get 0) (refEncode A bin) = leadingRun 0#8 bin := by
  have hrest : leadingRun (A.get 0) ((digits58 (val256 bin)).map A.get) = 0 := by
    rw [leadingRun_eq_zero_iff, List.head?_map]
    intro h
    obtain ⟨d, hd, hget⟩ := Option.map_eq_some_iff.1 h
    exact digits58_head_ne_zero _ d hd (hA d 0 hget)
  rw [refEncode_eq, leadingRun_replicate_append, hrest, Nat.add_zero]

/-- RefDecode is the left inverse of RefEncode (43_reference_and_properties.md R127). -/
theorem refDecode_refEncode (bin : List Byte) : refDecode A (refEncode A bin) = some bin := by
  have hfold : refFold A (refEncode A bin) 0 = some (val256 bin) := by
    rw [refEncode_eq, refFold_zeros_append hA, refFold_map_get hA, val58_digits58, Nat.zero_mul,
      Nat.zero_add]
  refine refDecode_eq_some_iff.2 ⟨_, hfold, ?_⟩
  rw [leadingRun_refEncode hA, ← drop_leadingRun]
  exact (leadingRun_split 0#8 bin).1.symm

/-- RefEncode gives back every string that RefDecode accepts (43_reference_and_properties.md R135).
-/
theorem refEncode_of_refDecode {str out : List Byte} (h : refDecode A str = some out) :
    refEncode A out = str := by
  obtain ⟨v, hv, rfl⟩ := refDecode_eq_some_iff.1 h
  have hmin : leadingRun 0#8 (minBytes v) = 0 := (leadingRun_eq_zero_iff _ _).2 (minBytes_head v)
  rw [refEncode_zeros_append, refEncode_eq, hmin, val256_minBytes]
  exact (eq_zeros_append_digits58_of_refFold hA hv).symm

end RoundTrips

end Sys2Proof.Machine

/-! PROOFS. The packing of DEC (42_decode.md R106, R107, R115): its length, its number, and the
state machine over the bytes remaining in a word. -/

namespace Sys2Proof.Machine

/-! ### Bytes of the first word -/

/-- The first word gives R bytes, 1 to 4, and every later word four (42_decode.md R106). -/
theorem firstWordBytes_spec {l : Nat} (hl : 0 < l) :
    1 ≤ firstWordBytes l ∧ firstWordBytes l ≤ 4 ∧
      l = firstWordBytes l + 4 * (accSize l - 1) ∧ 1 ≤ accSize l := by
  unfold firstWordBytes accSize
  split_ifs <;> omega

/-- An accumulator for L symbols: its first word and the later ones, with the bytes they give. -/
theorem accumulator_cases {l : Nat} {acc : List Word} (hl : 0 < l) (hacc : acc.length = accSize l) :
    ∃ w ws, acc = w :: ws ∧ l = firstWordBytes l + 4 * ws.length := by
  obtain ⟨-, -, hsum, hsize⟩ := firstWordBytes_spec hl
  cases acc with
  | nil => exact absurd hacc.symm (Nat.ne_of_gt hsize)
  | cons w ws =>
    rw [← hacc, List.length_cons, Nat.add_sub_cancel] at hsum
    exact ⟨w, ws, rfl, hsum⟩

/-! ### Length and number -/

theorem packRaw_cons_length (r : Nat) (w : Word) (ws : List Word) :
    (packRaw r (w :: ws)).length = r + 4 * ws.length := by
  rw [packRaw, List.length_append, packWord_length, (flatMap4_val ws).2]

/-- Where the first word fits its r bytes, the packing keeps the number (42_decode.md R107). -/
theorem val256_packRaw_cons {r : Nat} {w : Word} (hw : w.toNat < 256 ^ r) (ws : List Word) :
    val256 (packRaw r (w :: ws)) = valWords (w :: ws) := by
  obtain ⟨hval, hlen⟩ := flatMap4_val ws
  rw [packRaw, val256_append, packWord_val, Nat.mod_eq_of_lt hw, hval, hlen, valWords_cons, pow_mul]
  norm_num

/-- Check (b) asks that the first word fits its r bytes (42_decode.md R106). -/
theorem shiftRight_eq_zero_iff (w : Word) (r : Nat) :
    w >>> (8 * r) = 0#32 ↔ w.toNat < 256 ^ r := by
  rw [← BitVec.toNat_inj, BitVec.toNat_ushiftRight, Nat.shiftRight_eq_div_pow, pow_mul]
  exact Nat.div_eq_zero_iff_lt (by positivity)

/-- Settles O36: the words give r and four bytes each; four bytes always hold a word, and fewer do
where check (b) passes. -/
theorem packingKeepsTheNumber : Obligations.PackingKeepsTheNumber := by
  unfold Obligations.PackingKeepsTheNumber
  intro l acc hl hacc
  obtain ⟨w, ws, rfl, hsum⟩ := accumulator_cases hl hacc
  refine ⟨(packRaw_cons_length _ w ws).trans hsum.symm, fun hfits => val256_packRaw_cons ?_ ws⟩
  obtain hr | hcheck := hfits
  · rw [hr]
    exact w.isLt
  · exact (shiftRight_eq_zero_iff w _).1 hcheck

/-! ### The state machine -/

/-- With r bytes of a word remaining, the next r steps give them, and the next word follows. -/
theorem packMachine_word (r n : Nat) (w : Word) (ws : List Word) :
    packMachine (r + 1 + n) (r + 1) (w :: ws) = packWord (r + 1) w ++ packMachine n 4 ws := by
  induction r with
  | zero => rw [Nat.zero_add, Nat.add_comm, packMachine, packWord_succ]; rfl
  | succ r ih =>
    rw [Nat.add_right_comm (r + 1) 1 n, packMachine, if_neg (by omega), packWord_succ,
      List.cons_append, ← ih]
    rfl

theorem packMachine_words (ws : List Word) :
    packMachine (4 * ws.length) 4 ws = ws.flatMap (packWord 4) := by
  induction ws with
  | nil => rfl
  | cons w ws ih =>
    rw [List.length_cons, Nat.mul_succ, Nat.add_comm, packMachine_word 3, ih, List.flatMap_cons]

/-- Settles O35: the machine gives the R bytes of the first word, then four of every later one. -/
theorem packingIsTheByteStateMachine : Obligations.PackingIsTheByteStateMachine := by
  unfold Obligations.PackingIsTheByteStateMachine
  intro l acc hl hacc
  obtain ⟨w, ws, rfl, hsum⟩ := accumulator_cases hl hacc
  obtain ⟨r, hr⟩ := Nat.exists_eq_add_of_le' (firstWordBytes_spec hl).1
  rw [hr] at hsum ⊢
  rw [hsum, packMachine_word, packMachine_words, packRaw]

end Sys2Proof.Machine

/-! PROOFS. DEC (42_decode.md R102 to R116) against the reference decoder
(43_reference_and_properties.md R123): the accumulator holds the number of the symbols read so far,
which never overflows it; its packing is trimmed to the bytes of RefDecode. Then the statements
about DEC, and those about ENC and DEC together. -/

namespace Sys2Proof.Machine

/-! ### The accumulator -/

/-- No carry leaves ACC[0] while the new number fits (42_decode.md R110). -/
theorem mulAdd_snd_eq_zero {d : Nat} {acc : List Word}
    (hfit : 58 * valWords acc + d < 2 ^ (32 * acc.length)) : (mulAdd acc.length d acc).2 = 0 := by
  have hvalue := valWords_mulAdd d acc
  by_contra hcarry
  have := Nat.le_mul_of_pos_left (2 ^ (32 * acc.length)) (Nat.pos_of_ne_zero hcarry)
  omega

theorem valWords_mulAdd_of_fits {d : Nat} {acc : List Word}
    (hfit : 58 * valWords acc + d < 2 ^ (32 * acc.length)) :
    valWords (mulAdd acc.length d acc).1 = 58 * valWords acc + d := by
  simpa [mulAdd_snd_eq_zero hfit] using valWords_mulAdd d acc

section Symbols

variable {A : Vector Byte 58} {T : Vector Byte 128} (hinv : AlphabetInv A T)
include hinv

theorem decodeSymbols_cons_foreign {c : Byte} (hc : symbolDigit A c = none) (cs : List Byte)
    (acc : List Word) : decodeSymbols T (c :: cs) acc = .error .invalidDigit := by
  simp only [decodeSymbols, decodeDigit_eq_symbolDigit hinv, hc, Option.map_none]

theorem decodeSymbols_cons_symbol {c : Byte} {d : Digit} (hc : symbolDigit A c = some d)
    (cs : List Byte) {acc : List Word} (hfit : 58 * valWords acc + d.val < 2 ^ (32 * acc.length)) :
    decodeSymbols T (c :: cs) acc = decodeSymbols T cs (mulAdd acc.length d.val acc).1 := by
  simp only [decodeSymbols, decodeDigit_eq_symbolDigit hinv, hc, Option.map_some,
    mulAdd_snd_eq_zero hfit, ne_eq, not_true_eq_false, if_false]

/-- The loop of DEC is RefDecode's fold while there is room for every symbol left: each takes the
number v to at most 58 (v + 1) - 1. -/
theorem decodeSymbols_eq_refFold (str : List Byte) (acc : List Word)
    (hroom : (valWords acc + 1) * 58 ^ str.length ≤ 2 ^ (32 * acc.length)) :
    (refFold A str (valWords acc) = none ∧ decodeSymbols T str acc = .error .invalidDigit) ∨
    ∃ acc', decodeSymbols T str acc = .ok acc' ∧ acc'.length = acc.length ∧
      refFold A str (valWords acc) = some (valWords acc') := by
  induction str generalizing acc with
  | nil => exact .inr ⟨acc, rfl, rfl, rfl⟩
  | cons c cs ih =>
    cases hc : symbolDigit A c with
    | none => exact .inl ⟨refFold_cons_none hc _ _, decodeSymbols_cons_foreign hinv hc _ _⟩
    | some d =>
      have hd : d.val < 58 := d.isLt
      have hpow : 1 ≤ 58 ^ cs.length := Nat.one_le_pow _ _ (by norm_num)
      have hnext : (58 * valWords acc + d.val + 1) * 58 ^ cs.length ≤ 2 ^ (32 * acc.length) := by
        refine le_trans ?_ hroom
        rw [List.length_cons, pow_succ, mul_comm (58 ^ cs.length), ← mul_assoc]
        exact Nat.mul_le_mul_right _ (by omega)
      have hfit : 58 * valWords acc + d.val < 2 ^ (32 * acc.length) :=
        (Nat.le_mul_of_pos_right _ hpow).trans hnext
      have hval := valWords_mulAdd_of_fits hfit
      have hlen := mulAdd_length acc.length d.val acc
      have hrest := ih (mulAdd acc.length d.val acc).1 (by rwa [hval, hlen])
      rw [hval, hlen, mul_comm 58] at hrest
      rwa [refFold_cons_some hc, decodeSymbols_cons_symbol hinv hc cs hfit]

end Symbols

/-- The zero accumulator has room for L symbols: L bytes fit its words, and a digit is less than a
byte (42_decode.md R103, R110). -/
theorem room_for_symbols (l : Nat) :
    (valWords (List.replicate (accSize l) 0#32) + 1) * 58 ^ l ≤
      2 ^ (32 * (List.replicate (accSize l) 0#32).length) := by
  have hsize : 8 * l ≤ 32 * accSize l := by unfold accSize; omega
  rw [valWords_zero, List.length_replicate, Nat.zero_add, Nat.one_mul]
  calc 58 ^ l ≤ (2 ^ 8) ^ l := Nat.pow_le_pow_left (by norm_num) l
    _ = 2 ^ (8 * l) := by rw [pow_mul]
    _ ≤ 2 ^ (32 * accSize l) := Nat.pow_le_pow_right (by norm_num) hsize

theorem refFold_of_decodeSymbols {A : Vector Byte 58} {T : Vector Byte 128}
    (hinv : AlphabetInv A T) {str : List Byte} {acc : List Word}
    (h : decodeSymbols T str (List.replicate (accSize str.length) 0#32) = .ok acc) :
    acc.length = accSize str.length ∧ refFold A str 0 = some (valWords acc) := by
  obtain ⟨-, herr⟩ | ⟨acc', hok, hlen, hsome⟩ :=
    decodeSymbols_eq_refFold hinv str _ (room_for_symbols str.length)
  · cases h.symm.trans herr
  · obtain rfl := Except.ok.inj (h.symm.trans hok)
    exact ⟨hlen.trans (List.length_replicate ..), by rwa [valWords_zero] at hsome⟩

/-! ### The raw buffer -/

/-- The number of L symbols leaves the bits that check (b) tests zero (42_decode.md R106, R110). -/
theorem shiftRight_headD_eq_zero {l : Nat} {acc : List Word} (hl : 0 < l)
    (hacc : acc.length = accSize l) (hval : valWords acc < 256 ^ l) :
    acc.headD 0#32 >>> (8 * firstWordBytes l) = 0#32 := by
  obtain ⟨w, ws, rfl, hsum⟩ := accumulator_cases hl hacc
  refine (shiftRight_eq_zero_iff w _).2 ?_
  have hbytes : 256 ^ l = 256 ^ firstWordBytes l * (2 ^ 32) ^ ws.length := by
    conv_lhs => rw [hsum]
    rw [pow_add, pow_mul]
    norm_num
  rw [valWords_cons, hbytes] at hval
  exact Nat.lt_of_mul_lt_mul_right ((Nat.le_add_right _ _).trans_lt hval)

/-- The leading zero bytes of a raw buffer, by the bytes its number needs. -/
theorem leadingRun_eq_length_sub (raw : List Byte) :
    leadingRun 0#8 raw = raw.length - (minBytes (val256 raw)).length := by
  have hlen := congrArg List.length (drop_leadingRun raw)
  have hrun := leadingRun_le 0#8 raw
  rw [List.length_drop] at hlen
  omega

section Raw

variable {A : Vector Byte 58} {T : Vector Byte 128} (hinv : AlphabetInv A T) {str : List Byte}
  {acc : List Word} (hne : str ≠ [])
  (hacc : decodeSymbols T str (List.replicate (accSize str.length) 0#32) = .ok acc)
include hinv hne hacc

/-- Check (b) passes for every string of symbols (42_decode.md R110). -/
theorem check_b_passes : acc.headD 0#32 >>> (8 * firstWordBytes str.length) = 0#32 := by
  obtain ⟨hlen, hfold⟩ := refFold_of_decodeSymbols hinv hacc
  have hval := lt_pow_256_of_refFold hinv.distinct hfold
  refine shiftRight_headD_eq_zero (List.length_pos_iff.2 hne) hlen (hval.trans_le ?_)
  exact Nat.pow_le_pow_right (by norm_num) (Nat.sub_le _ _)

/-- The raw buffer has a byte for each symbol and denotes the number of the symbols. -/
theorem packRaw_spec :
    (packRaw (firstWordBytes str.length) acc).length = str.length ∧
      refFold A str 0 = some (val256 (packRaw (firstWordBytes str.length) acc)) := by
  obtain ⟨hlen, hfold⟩ := refFold_of_decodeSymbols hinv hacc
  obtain ⟨hraw, hval⟩ := packingKeepsTheNumber str.length acc (List.length_pos_iff.2 hne) hlen
  exact ⟨hraw, by rw [hval (.inr (check_b_passes hinv hne hacc)), hfold]⟩

/-- The raw buffer begins with a zero byte for each leading zero symbol (42_decode.md R111). -/
theorem leadingRun_le_leadingRun_packRaw :
    leadingRun (A.get 0) str ≤ leadingRun 0#8 (packRaw (firstWordBytes str.length) acc) := by
  obtain ⟨hraw, hfold⟩ := packRaw_spec hinv hne hacc
  have hmin := minBytes_length_le _ _ (lt_pow_256_of_refFold hinv.distinct hfold)
  have hrun := leadingRun_le (A.get 0) str
  rw [leadingRun_eq_length_sub, hraw]
  omega

end Raw

/-- Settles O34: the number of a string is below 256 to the number of its symbols after the leading
zero ones, so it leaves as many leading bytes zero. -/
theorem zeroTrimIsNeverClamped : Obligations.ZeroTrimIsNeverClamped := by
  unfold Obligations.ZeroTrimIsNeverClamped
  intro A T str acc hinv hne hacc
  exact ⟨(packRaw_spec hinv hne hacc).1, leadingRun_le_leadingRun_packRaw hinv hne hacc⟩

/-- A trim that is not clamped keeps Z zero bytes before the shortest bytes of the number
(42_decode.md R108). -/
theorem trimRaw_of_le {z : Nat} {raw : List Byte} (h : z ≤ leadingRun 0#8 raw) :
    trimRaw z raw = List.replicate z 0#8 ++ minBytes (val256 raw) := by
  obtain ⟨k, hk⟩ := Nat.exists_eq_add_of_le' h
  have hsplit := (leadingRun_split 0#8 raw).1
  rw [drop_leadingRun, hk, List.replicate_add, List.append_assoc] at hsplit
  rw [trimRaw, hk, Nat.add_sub_cancel]
  conv_lhs => rw [hsplit]
  exact List.drop_left' (List.length_replicate ..)

/-! ### The bytes of a string -/

/-- DEC's bytes are RefDecode's, and InvalidDigit is its only error past the empty string
(43_reference_and_properties.md R129, R130). -/
theorem decodeString_eq_refDecode {A : Vector Byte 58} {T : Vector Byte 128}
    (hinv : AlphabetInv A T) {str : List Byte} (hne : str ≠ []) :
    decodeString A T str = (refDecode A str).elim (.error .invalidDigit) .ok := by
  have hlen : ¬str.length = 0 := fun h => hne (List.eq_nil_of_length_eq_zero h)
  simp only [decodeString, if_neg hlen]
  cases hacc : decodeSymbols T str (List.replicate (accSize str.length) 0#32) with
  | error e =>
    obtain ⟨hfold, herr⟩ | ⟨acc, hok, -, -⟩ :=
      decodeSymbols_eq_refFold hinv str _ (room_for_symbols str.length)
    · rw [valWords_zero] at hfold
      rw [refDecode_eq, hfold, Except.error.inj (hacc.symm.trans herr)]
      rfl
    · cases hacc.symm.trans hok
  | ok acc =>
    obtain ⟨-, hfold⟩ := packRaw_spec hinv hne hacc
    have hcheck : ¬(firstWordBytes str.length < 4 ∧
        acc.headD 0#32 >>> (8 * firstWordBytes str.length) ≠ 0#32) :=
      fun h => h.2 (check_b_passes hinv hne hacc)
    simp only [if_neg hcheck]
    rw [refDecode_eq, hfold]
    exact congrArg _ (trimRaw_of_le (leadingRun_le_leadingRun_packRaw hinv hne hacc))

end Sys2Proof.Machine

/-! PROOFS. The statements about DEC, and about ENC and DEC together, from RefDecode being what DEC
computes and the inverse of RefEncode (43_reference_and_properties.md R127, R129, R130, R135). -/

namespace Sys2Proof.Machine

/-! ### What DEC leaves -/

theorem State.input_ne_nil {s : State} (h : 1 ≤ s.inLen.toNat) : s.input ≠ [] :=
  List.ne_nil_of_length_pos (h.trans_eq s.input_length.symm)

theorem execDec_of_ok {s : State} {out : List Byte} (hlen : s.inLen.toNat ≤ Config.inMax)
    (hok : decodeString s.alpha s.dect s.input = .ok out) :
    execDec s = .next (s.commitResult out) := by
  simp only [execDec, hok, if_neg (Nat.not_lt.2 hlen)]

section Dec

variable {s : State} (hinv : AlphabetInv s.alpha s.dect)
include hinv

/-- DEC of a string that RefDecode refuses ends with InvalidDigit (43_reference_and_properties.md
R130). -/
theorem exec_dec_of_refDecode_none (hpos : 1 ≤ s.inLen.toNat) (hlen : s.inLen.toNat ≤ 256)
    (h : refDecode s.alpha s.input = none) : exec .dec s = .next (s.raise .invalidDigit) := by
  refine execDec_of_error hlen ?_
  rw [decodeString_eq_refDecode hinv (State.input_ne_nil hpos), h]
  rfl

/-- DEC of a string that RefDecode accepts commits its bytes, at most one a symbol
(43_reference_and_properties.md R129). -/
theorem exec_dec_of_refDecode_some (hpos : 1 ≤ s.inLen.toNat) (hlen : s.inLen.toNat ≤ 256)
    {out : List Byte} (h : refDecode s.alpha s.input = some out) :
    exec .dec s = .next (s.commitResult out) ∧ out.length ≤ s.inLen.toNat ∧
      (s.commitResult out).outLen.toNat = out.length ∧ (s.commitResult out).output = out := by
  have hout : out.length ≤ s.inLen.toNat :=
    (refDecode_length_le hinv.distinct h).trans_eq s.input_length
  have hshort : out.length < 65536 := by omega
  refine ⟨execDec_of_ok hlen ?_, hout, s.outLen_commitResult_toNat hshort,
    s.output_commitResult _ hshort⟩
  rw [decodeString_eq_refDecode hinv (State.input_ne_nil hpos), h]
  rfl

/-- A DEC that succeeds was given a string within the length limits that RefDecode accepts, and
leaves the bytes RefDecode gives. -/
theorem refDecode_of_exec_dec_ok {t : State} (hexec : exec .dec s = .next t) (hok : t.err = 0#4) :
    s.inLen.toNat ≤ 256 ∧ refDecode s.alpha s.input = some t.output := by
  obtain ⟨-, rfl⟩ | ⟨hlen, ⟨e, -, rfl⟩ | ⟨out, hout, rfl⟩⟩ := execDec_cases s t hexec
  · cases hok
  · cases e <;> cases hok
  · have hne : s.input ≠ [] := by
      intro hnil
      rw [hnil, decodeString_nil] at hout
      cases hout
    have hpos : 1 ≤ s.inLen.toNat := (List.length_pos_iff.2 hne).trans_eq s.input_length
    rw [decodeString_eq_refDecode hinv hne] at hout
    refine ⟨hlen, ?_⟩
    cases href : refDecode s.alpha s.input with
    | none =>
      rw [href] at hout
      cases hout
    | some bytes =>
      rw [href] at hout
      obtain rfl := Except.ok.inj hout
      rw [(exec_dec_of_refDecode_some hinv hpos hlen href).2.2.2]

end Dec

/-! ### The statements about DEC -/

/-- Settles O28: DEC commits the bytes of RefDecode where it gives some, and ends with InvalidDigit
where it fails. -/
theorem decodeEqualsTheReferenceDecoder : Obligations.DecodeEqualsTheReferenceDecoder := by
  unfold Obligations.DecodeEqualsTheReferenceDecoder
  intro s hinv hpos hlen
  split
  next out href =>
    obtain ⟨hexec, -, houtLen, hout⟩ := exec_dec_of_refDecode_some hinv hpos hlen href
    exact ⟨_, hexec, rfl, houtLen, hout⟩
  next href => exact exec_dec_of_refDecode_none hinv hpos hlen href

/-- Some cell of the input has no digit exactly where the fold of RefDecode fails. -/
theorem refDecode_input_eq_none_iff {s : State} (hinv : AlphabetInv s.alpha s.dect) :
    refDecode s.alpha s.input = none ↔ ∃ k, k < s.inLen.toNat ∧
      ∀ h : (s.ibufCell k).toNat < 128, s.dect.get ⟨(s.ibufCell k).toNat, h⟩ = 0xFF#8 := by
  simp only [refDecode_eq_none_iff, State.input, List.mem_map, List.mem_range,
    exists_exists_and_eq_and, ← decodeDigit_eq_none_iff, decodeDigit_eq_symbolDigit hinv, Option.map_eq_none_iff]

/-- Settles O29: a cell without a digit is what makes RefDecode fail, and DEC end with InvalidDigit.
-/
theorem decodeRejectsExactlyForeignCells : Obligations.DecodeRejectsExactlyForeignCells := by
  unfold Obligations.DecodeRejectsExactlyForeignCells
  intro s hinv hpos hlen
  have hforeign := refDecode_input_eq_none_iff hinv
  refine ⟨fun h => exec_dec_of_refDecode_none hinv hpos hlen (hforeign.2 h), fun h => ?_⟩
  cases href : refDecode s.alpha s.input with
  | none =>
    obtain ⟨k, hk, hcell⟩ := hforeign.1 href
    obtain ⟨hascii, hdigit⟩ := h k hk
    exact absurd (hcell hascii) hdigit
  | some out =>
    obtain ⟨hexec, hshort, houtLen, -⟩ := exec_dec_of_refDecode_some hinv hpos hlen href
    exact ⟨_, hexec, rfl, houtLen.trans_le hshort⟩

/-- The errors of DEC past the length check (42_decode.md R110, R116). -/
theorem decodeString_error {A : Vector Byte 58} {T : Vector Byte 128} (hinv : AlphabetInv A T)
    {str : List Byte} {e : Err} (h : decodeString A T str = .error e) :
    e = .emptyInput ∨ e = .invalidDigit := by
  by_cases hne : str = []
  · rw [hne, decodeString_nil] at h
    exact .inl (Except.error.inj h).symm
  · rw [decodeString_eq_refDecode hinv hne] at h
    cases href : refDecode A str with
    | none =>
      rw [href] at h
      exact .inr (Except.error.inj h).symm
    | some out =>
      rw [href] at h
      cases h

/-- Settles O33: past the length check DEC ends with EmptyInput, InvalidDigit or a result. -/
theorem decodeNeverOverflows : Obligations.DecodeNeverOverflows := by
  unfold Obligations.DecodeNeverOverflows
  intro s t hinv hexec
  obtain ⟨-, rfl⟩ | ⟨-, ⟨e, he, rfl⟩ | ⟨out, -, rfl⟩⟩ := execDec_cases s t hexec
  · exact .inr (.inr (.inr rfl))
  · obtain rfl | rfl := decodeString_error hinv he
    · exact .inr (.inl rfl)
    · exact .inr (.inr (.inl rfl))
  · exact .inl rfl

/-- Settles O37: RefDecode of L zero symbols is L zero bytes. -/
theorem decodeOfZeroSymbolsIsZeroBytes : Obligations.DecodeOfZeroSymbolsIsZeroBytes := by
  unfold Obligations.DecodeOfZeroSymbolsIsZeroBytes
  intro s hinv hpos hlen hcells
  have href := refDecode_zeros hinv.distinct s.inLen.toNat
  rw [← State.input_eq_replicate hcells] at href
  exact ⟨_, (exec_dec_of_refDecode_some hinv hpos hlen href).1, rfl,
    s.outLen_commitResult_replicate _, fun _ => s.obufCell_commitResult_replicate _⟩

/-! ### ENC and DEC together -/

/-- Settles O42: DEC gives RefDecode of RefEncode of the input, which is at least as long as the
input and so not empty. -/
theorem decodeOfEncodeIsTheInput : Obligations.DecodeOfEncodeIsTheInput := by
  unfold Obligations.DecodeOfEncodeIsTheInput
  intro s t s' hinv hpos hlen henc halpha hdect hinput hlen'
  obtain ⟨-, -, hout⟩ := of_exec_enc hlen henc
  rw [hout] at hinput
  have hpos' : 1 ≤ s'.inLen.toNat := by
    have hlow := length_le_refEncode_length s.alpha s.input
    rw [← hinput, s.input_length, s'.input_length] at hlow
    exact hpos.trans hlow
  have hinv' : AlphabetInv s'.alpha s'.dect := by rwa [halpha, hdect]
  have href : refDecode s'.alpha s'.input = some s.input := by
    rw [halpha, hinput, refDecode_refEncode hinv.distinct]
  obtain ⟨hexec, -, -, hresult⟩ := exec_dec_of_refDecode_some hinv' hpos' hlen' href
  exact ⟨_, hexec, rfl, hresult⟩

/-- Settles O43: ENC gives RefEncode of RefDecode of the string, which is no longer than the string.
-/
theorem encodeOfDecodeIsTheString : Obligations.EncodeOfDecodeIsTheString := by
  unfold Obligations.EncodeOfDecodeIsTheString
  intro s t s' hinv hdec hok halpha hinput
  obtain ⟨hlen, href⟩ := refDecode_of_exec_dec_ok hinv hdec hok
  have hlen' : s'.inLen.toNat ≤ 256 := by
    have hshort := refDecode_length_le hinv.distinct href
    rw [← hinput, s.input_length, s'.input_length] at hshort
    exact hshort.trans hlen
  have hexec : exec .enc s' = .next _ := execEnc_of_le_inMax hlen'
  obtain ⟨herr, -, hout⟩ := of_exec_enc hlen' hexec
  exact ⟨_, hexec, herr, by rw [hout, halpha, hinput, refEncode_of_refDecode hinv.distinct href]⟩

/-- Settles O44: RefEncode gives both strings back from their bytes. -/
theorem decodeIsInjective : Obligations.DecodeIsInjective := by
  unfold Obligations.DecodeIsInjective
  intro s s' t t' hinv halpha hdect hexec hexec' hok hok' hout
  have hinv' : AlphabetInv s'.alpha s'.dect := by rwa [halpha, hdect]
  obtain ⟨-, href⟩ := refDecode_of_exec_dec_ok hinv hexec hok
  obtain ⟨-, href'⟩ := refDecode_of_exec_dec_ok hinv' hexec' hok'
  rw [← refEncode_of_refDecode hinv.distinct href, ← hout, ← halpha]
  exact (refEncode_of_refDecode hinv'.distinct href').symm

/-! ### The known vectors -/

theorem exec_enc_of_input {s : State} {bin : List Byte} (hlen : bin.length ≤ 256)
    (hinput : s.input = bin) :
    ∃ t, exec .enc s = .next t ∧ t.err = 0#4 ∧ t.output = refEncode s.alpha bin := by
  have hle : s.inLen.toNat ≤ 256 := by rwa [← s.input_length, hinput]
  have hexec : exec .enc s = .next _ := execEnc_of_le_inMax hle
  obtain ⟨herr, -, hout⟩ := of_exec_enc hle hexec
  exact ⟨_, hexec, herr, by rw [hout, hinput]⟩

/-- Settles O45: RefEncode and RefDecode, evaluated on the three vectors. -/
theorem knownVectors : Obligations.KnownVectors := by
  unfold Obligations.KnownVectors
  refine ⟨fun s halpha hinput => ?_, fun s halpha hinput => ?_, fun s halpha hinv hinput => ?_⟩
  · have hstring : refEncode Config.roma0 [0x00#8, 0x01#8, 0x09#8] = [0x31#8, 0x35#8, 0x61#8] := by
      decide +kernel
    simpa only [halpha, hstring] using exec_enc_of_input (by decide) hinput
  · have hstring : refEncode Config.roma0 [0x00#8, 0x01#8, 0x02#8] = [0x31#8, 0x35#8, 0x54#8] := by
      decide +kernel
    simpa only [halpha, hstring] using exec_enc_of_input (by decide) hinput
  · have hbytes : refDecode s.alpha s.input = some [0x00#8, 0x01#8, 0x02#8] := by
      rw [halpha, hinput]
      decide +kernel
    have hlen : s.inLen.toNat = 3 := by rw [← s.input_length, hinput]; rfl
    obtain ⟨hexec, -, -, hout⟩ :=
      exec_dec_of_refDecode_some hinv (by omega) (by omega) hbytes
    exact ⟨_, hexec, rfl, hout⟩

end Sys2Proof.Machine

/-! PROOFS. How a command ends (60_exceptions.md R149): what each of the four can leave, said once,
and from that the frames of the commands, and that their results depend on their inputs only. -/

namespace Sys2Proof.Machine

/-! ### The alphabets that the commands make active -/

/-- The decode table of a well-formed alphabet is its inverse (40_alphabet.md R72, R73). -/
theorem alphabetInv_buildDect {A : Vector Byte 58} (hwf : alphabetWellFormed A = true) :
    AlphabetInv A (buildDect A) := by
  obtain ⟨hascii, hdistinct⟩ := (alphabetWellFormed_iff A).1 hwf
  have hdigit : ∀ d : Digit, (digitCell d).toInt = d.val := by decide
  refine ⟨hascii, hdistinct, fun d => ?_, fun c hc => ?_⟩
  · rw [buildDect_get_symbol hdistinct rfl, hdigit]
  · rw [buildDect_get_of_ne hc]
    rfl

/-- Settles O19: facts of the two listed tables, evaluated. -/
theorem predefinedAlphabetsAreWellFormed : Obligations.PredefinedAlphabetsAreWellFormed := by
  unfold Obligations.PredefinedAlphabetsAreWellFormed
  decide +kernel

theorem roma_wellFormed (k : BitVec 1) : alphabetWellFormed (Config.roma k) = true :=
  (predefinedAlphabetsAreWellFormed.1 k).1

theorem exec_lda_cases (s : State) :
    exec .lda s = .next (s.raise .alphabetError) ∨
      alphabetWellFormed s.ibufTable = true ∧
        exec .lda s = .next (s.commitAlphabet s.ibufTable) := by
  by_cases h : s.inLen.toNat = 58 ∧ alphabetWellFormed s.ibufTable = true
  · exact .inr ⟨h.2, exec_lda_of_wellFormed h.1 h.2⟩
  · exact .inl (exec_lda_of_not_wellFormed fun h58 hwf => h ⟨h58, hwf⟩)

/-! ### The results of ENC and DEC -/

/-- What ENC gives: LengthRange, or the string of RefEncode. -/
def encResult (s : State) : Except Err (List Byte) :=
  if s.inLen.toNat > Config.inMax then .error .lengthRange else .ok (refEncode s.alpha s.input)

/-- What DEC gives: LengthRange, or what its steps 1 to 6 give. -/
def decResult (s : State) : Except Err (List Byte) :=
  if s.inLen.toNat > Config.inMax then .error .lengthRange
  else decodeString s.alpha s.dect s.input

/-- The end of ENC or DEC with its result (60_exceptions.md R149). -/
def State.conclude (s : State) : Except Err (List Byte) → State
  | .error e => s.raise e
  | .ok out => s.commitResult out

theorem exec_enc (s : State) : exec .enc s = .next (s.conclude (encResult s)) := by
  unfold encResult
  split_ifs with h
  · exact execEnc_of_gt_inMax h
  · exact execEnc_of_le_inMax (Nat.not_lt.1 h)

theorem exec_dec (s : State) : exec .dec s = .next (s.conclude (decResult s)) := by
  unfold decResult
  split_ifs with h
  · exact execDec_of_gt_inMax h
  · cases hs : decodeString s.alpha s.dect s.input with
    | error e => exact execDec_of_error (Nat.not_lt.1 h) hs
    | ok out => exact execDec_of_ok (Nat.not_lt.1 h) hs

theorem encResult_length_le {s : State} {out : List Byte} (h : encResult s = .ok out) :
    out.length ≤ Config.outMax := by
  unfold encResult at h
  split_ifs at h with hlen
  obtain rfl := Except.ok.inj h
  exact refEncode_length_le_outMax _ (s.input_length.trans_le (Nat.not_lt.1 hlen))

/-- DEC's loop keeps the number of words, whatever DECT holds. -/
theorem decodeSymbols_length {T : Vector Byte 128} {str : List Byte} {acc acc' : List Word}
    (h : decodeSymbols T str acc = .ok acc') : acc'.length = acc.length := by
  induction str generalizing acc with
  | nil => rw [← Except.ok.inj h]
  | cons c cs ih =>
    unfold decodeSymbols at h
    split at h
    · cases h
    · dsimp only at h
      split_ifs at h
      rw [ih h, mulAdd_length]

/-- DEC gives at most a byte for each symbol, whatever its tables hold. -/
theorem decodeString_length_le {A : Vector Byte 58} {T : Vector Byte 128} {str out : List Byte}
    (h : decodeString A T str = .ok out) : out.length ≤ str.length := by
  simp only [decodeString] at h
  split_ifs at h with hzero
  split at h
  · cases h
  · rename_i acc hacc
    split_ifs at h
    have hlen := (decodeSymbols_length hacc).trans (List.length_replicate ..)
    have hraw := (packingKeepsTheNumber _ acc (Nat.pos_of_ne_zero hzero) hlen).1
    rw [← Except.ok.inj h, trimRaw, List.length_drop, hraw]
    exact Nat.sub_le _ _

theorem decResult_length_le {s : State} {out : List Byte} (h : decResult s = .ok out) :
    out.length ≤ Config.outMax := by
  unfold decResult at h
  split_ifs at h with hlen
  have hle := decodeString_length_le h
  rw [s.input_length] at hle
  simp only [Config.inMax, Config.outMax] at hlen ⊢
  omega

/-- NumericOverflow is none of DEC's errors (42_decode.md R110). -/
theorem decResult_ne_numericOverflow {s : State} (hinv : AlphabetInv s.alpha s.dect) :
    decResult s ≠ .error .numericOverflow := by
  unfold decResult
  split_ifs
  · exact fun h => nomatch h
  · intro h
    obtain he | he := decodeString_error hinv h <;> cases he

/-! ### How a command ends -/

/-- The states a command can leave (60_exceptions.md R149): an error changes STATUS.ERR and OUT_LEN
only, ENC and DEC commit a result that fits OBUF, LDA and SELA a well-formed alphabet. -/
inductive EndsAs (c : Command) (s : State) : State → Prop
  | raised (e : Err) (he : AlphabetInv s.alpha s.dect → e ≠ .numericOverflow) :
      EndsAs c s (s.raise e)
  | result (out : List Byte) (hc : c = .enc ∨ c = .dec) (hlen : out.length ≤ Config.outMax) :
      EndsAs c s (s.commitResult out)
  | alphabet (A : Vector Byte 58) (hc : c = .lda ∨ ∃ k, c = .sela k)
      (hwf : alphabetWellFormed A = true) : EndsAs c s (s.commitAlphabet A)

theorem endsAs_conclude {c : Command} {s : State} {r : Except Err (List Byte)}
    (hc : c = .enc ∨ c = .dec) (hlen : ∀ out, r = .ok out → out.length ≤ Config.outMax)
    (herr : AlphabetInv s.alpha s.dect → r ≠ .error .numericOverflow) :
    EndsAs c s (s.conclude r) := by
  cases r with
  | error e => exact .raised e fun hinv he => herr hinv (congrArg _ he)
  | ok out => exact .result out hc (hlen out rfl)

/-- Every command completes, in one of these states (00_scope.md R12). -/
theorem exec_toInstr (c : Command) (s : State) :
    ∃ t, exec c.toInstr s = .next t ∧ EndsAs c s t := by
  cases c with
  | enc =>
    refine ⟨_, exec_enc s, endsAs_conclude (.inl rfl) (fun _ => encResult_length_le) fun _ h => ?_⟩
    unfold encResult at h
    split_ifs at h
    cases h
  | dec =>
    exact ⟨_, exec_dec s, endsAs_conclude (.inr rfl) (fun _ => decResult_length_le)
      decResult_ne_numericOverflow⟩
  | lda =>
    obtain h | ⟨hwf, h⟩ := exec_lda_cases s
    · exact ⟨_, h, .raised _ fun _ => by decide⟩
    · exact ⟨_, h, .alphabet _ (.inl rfl) hwf⟩
  | sela k => exact ⟨_, exec_sela k s, .alphabet _ (.inr ⟨k, rfl⟩) (roma_wellFormed k)⟩

theorem endsAs_of_exec {c : Command} {s t : State} (h : exec c.toInstr s = .next t) :
    EndsAs c s t := by
  obtain ⟨t', h', hends⟩ := exec_toInstr c s
  obtain rfl := next_unique h' h
  exact hends

/-- Settles O59: SELA and LDA end with the decode table built from a well-formed alphabet, and an
error is no success. -/
theorem selaAndLdaEstablishTheAlphabetInvariant :
    Obligations.SelaAndLdaEstablishTheAlphabetInvariant := by
  unfold Obligations.SelaAndLdaEstablishTheAlphabetInvariant
  refine ⟨fun k s => ⟨_, exec_sela k s, alphabetInv_buildDect (roma_wellFormed k)⟩, ?_⟩
  intro s t hexec hok
  obtain h | ⟨hwf, h⟩ := exec_lda_cases s
  · obtain rfl := next_unique h hexec
    cases hok
  · obtain rfl := next_unique h hexec
    exact alphabetInv_buildDect hwf

/-! ### Frames -/

/-- A location reads as before where what it holds is as before. -/
theorem State.memRead_congr {s t : State} {a : Index}
    (herr : a.toNat = 0x001 → t.err = s.err)
    (hinLen : a.toNat = 0x002 → t.inLen = s.inLen)
    (houtLen : a.toNat = 0x003 → t.outLen = s.outLen)
    (hibuf : ∀ i, a.toNat = 0x100 + i → t.ibufCell i = s.ibufCell i)
    (hobuf : ∀ i, a.toNat = 0x400 + i → t.obufCell i = s.obufCell i)
    (halpha : 0x800 ≤ a.toNat ∧ a.toNat < 0x800 + 58 → t.alpha = s.alpha)
    (hdect : 0x880 ≤ a.toNat ∧ a.toNat < 0x880 + 128 → t.dect = s.dect) :
    t.memRead a = s.memRead a := by
  unfold State.memRead
  obtain ⟨-, hl⟩ | ⟨h, hl⟩ | ⟨h, hl⟩ | ⟨h, hl⟩ | ⟨i, -, h, hl⟩ | ⟨i, -, h, hl⟩ | ⟨d, h, hl⟩ |
    ⟨c, h, hl⟩ | ⟨-, hl⟩ := locate_cases a <;> rw [hl]
  · simp only [herr h]
  · simp only [hinLen h]
  · simp only [houtLen h]
  · simp only [hibuf i h]
  · simp only [hobuf i h]
  · simp only [halpha (by omega)]
  · simp only [hdect (by omega)]

/-- An error leaves every location other than STATUS and OUT_LEN as it was. -/
theorem State.memRead_raise_other (s : State) (e : Err) {a : Index} (h1 : a.toNat ≠ 0x001)
    (h3 : a.toNat ≠ 0x003) : (s.raise e).memRead a = s.memRead a :=
  State.memRead_congr (absurd · h1) (fun _ => rfl) (absurd · h3) (fun _ _ => rfl) (fun _ _ => rfl)
    (fun _ => rfl) (fun _ => rfl)

/-- Settles O16: LDA and SELA end with an error or with the commit of an alphabet. -/
theorem alphabetCommandsFrame : Obligations.AlphabetCommandsFrame := by
  unfold Obligations.AlphabetCommandsFrame
  intro i s t hi hexec
  obtain ⟨c, hc, rfl⟩ : ∃ c : Command, (c ≠ .enc ∧ c ≠ .dec) ∧ c.toInstr = i := by
    obtain rfl | ⟨k, rfl⟩ := hi
    · exact ⟨.lda, by simp, rfl⟩
    · exact ⟨.sela k, by simp, rfl⟩
  cases endsAs_of_exec hexec with
  | raised e =>
    exact ⟨rfl, rfl, rfl, rfl, rfl, rfl, rfl, fun _ h1 h3 _ _ => s.memRead_raise_other e h1 h3⟩
  | result out hcodec => exact absurd hcodec (not_or.2 hc)
  | alphabet A =>
    exact ⟨rfl, rfl, rfl, rfl, rfl, rfl, rfl, fun a h1 h3 ha hd => State.memRead_congr
      (absurd · h1) (fun _ => rfl) (absurd · h3) (fun _ _ => rfl) (fun _ _ => rfl) (absurd · ha)
      (absurd · hd)⟩

/-- Settles O38: ENC and DEC end with an error or with a result in OBUF[0..OUT_LEN). -/
theorem encodeAndDecodeFrame : Obligations.EncodeAndDecodeFrame := by
  unfold Obligations.EncodeAndDecodeFrame
  intro i s t hi hexec
  obtain ⟨c, hc, rfl⟩ : ∃ c : Command, (c = .enc ∨ c = .dec) ∧ c.toInstr = i := by
    obtain rfl | rfl := hi
    · exact ⟨.enc, by simp, rfl⟩
    · exact ⟨.dec, by simp, rfl⟩
  cases endsAs_of_exec hexec with
  | raised e =>
    exact ⟨rfl, rfl, rfl, rfl, rfl, rfl, rfl, fun _ _ => rfl,
      fun _ h1 h3 _ => s.memRead_raise_other e h1 h3⟩
  | result out _ hlen =>
    have houtLen : (s.commitResult out).outLen.toNat = out.length :=
      s.outLen_commitResult_toNat (hlen.trans_lt (by norm_num))
    rw [houtLen]
    have hcells := s.obufCell_commitResult_outside out
    exact ⟨rfl, rfl, rfl, rfl, rfl, rfl, rfl, hcells, fun a h1 h3 ho => State.memRead_congr
      (absurd · h1) (fun _ => rfl) (absurd · h3) (fun _ _ => rfl) (fun i hi => hcells i (by omega))
      (fun _ => rfl) (fun _ => rfl)⟩
  | alphabet A halpha => obtain rfl | rfl := hc <;> simp at halpha

/-- A command that ends with an error has raised it. -/
theorem EndsAs.eq_of_err_ne {c : Command} {s t : State} (h : EndsAs c s t) (herr : t.err ≠ 0#4) :
    t = { s with err := t.err, outLen := 0#16 } := by
  cases h with
  | raised e => rfl
  | result out => exact absurd rfl herr
  | alphabet A => exact absurd rfl herr

/-- Settles O39: a commit sets STATUS.ERR to 0, and what is no commit has raised its error; a write
to CMD is a command or the error IllegalCommand. -/
theorem errorsLeaveEverythingElseUnchanged : Obligations.ErrorsLeaveEverythingElseUnchanged := by
  unfold Obligations.ErrorsLeaveEverythingElseUnchanged
  intro i s t hi hexec herr
  have hcommand (c : Command) (h : exec c.toInstr s = .next t) :
      t = { s with err := t.err, outLen := 0#16 } := (endsAs_of_exec h).eq_of_err_ne herr
  obtain rfl | rfl | rfl | ⟨k, rfl⟩ | ⟨w, rfl⟩ := hi
  · exact hcommand .enc hexec
  · exact hcommand .dec hexec
  · exact hcommand .lda hexec
  · exact hcommand (.sela k) hexec
  · cases hw : decodeCmd w with
    | ok c => exact hcommand c ((exec_wr_cmd_ok rfl hw).symm.trans hexec)
    | error e =>
      obtain rfl := next_unique (exec_wr_cmd_error rfl hw) hexec
      rfl

/-! ### Results depend on the inputs only -/

theorem State.output_of_outLen_eq_zero {s : State} (h : s.outLen = 0#16) : s.output = [] := by
  simp [State.output, h]

/-- What the host reads of a result does not depend on the state it is committed to. -/
theorem conclude_agrees (s s' : State) {r : Except Err (List Byte)}
    (hlen : ∀ out, r = .ok out → out.length ≤ Config.outMax) :
    (s'.conclude r).err = (s.conclude r).err ∧ (s'.conclude r).outLen = (s.conclude r).outLen ∧
      (s'.conclude r).output = (s.conclude r).output := by
  cases r with
  | error e =>
    exact ⟨rfl, rfl, (State.output_of_outLen_eq_zero rfl).trans
      (State.output_of_outLen_eq_zero rfl).symm⟩
  | ok out =>
    have hshort : out.length < 65536 := (hlen out rfl).trans_lt (by norm_num)
    exact ⟨rfl, rfl, (s'.output_commitResult out hshort).trans
      (s.output_commitResult out hshort).symm⟩

section Inputs

variable {s s' t t' : State} (hinLen : s'.inLen = s.inLen) (hinput : s'.input = s.input)
  (halpha : s'.alpha = s.alpha) (hdect : s'.dect = s.dect)
include hinLen hinput halpha hdect

/-- ENC and DEC in two states with the same inputs give the host the same. -/
theorem exec_codec_agrees {i : Instr} (hi : i = .enc ∨ i = .dec) (hexec : exec i s = .next t)
    (hexec' : exec i s' = .next t') :
    t'.err = t.err ∧ t'.outLen = t.outLen ∧ t'.output = t.output := by
  obtain rfl | rfl := hi
  · have hres : encResult s' = encResult s := by simp only [encResult, hinLen, hinput, halpha]
    obtain rfl := next_unique (exec_enc s) hexec
    obtain rfl := next_unique (exec_enc s') hexec'
    rw [hres]
    exact conclude_agrees s s' fun _ => encResult_length_le
  · have hres : decResult s' = decResult s := by
      simp only [decResult, hinLen, hinput, halpha, hdect]
    obtain rfl := next_unique (exec_dec s) hexec
    obtain rfl := next_unique (exec_dec s') hexec'
    rw [hres]
    exact conclude_agrees s s' fun _ => decResult_length_le

end Inputs

theorem State.input_congr {s s' : State} (hinLen : s'.inLen = s.inLen)
    (hcells : ∀ k, k < s.inLen.toNat → s'.ibufCell k = s.ibufCell k) : s'.input = s.input := by
  rw [State.input, State.input, hinLen]
  exact List.map_congr_left fun k hk => hcells k (List.mem_range.1 hk)

/-- Settles O40: the results of ENC and DEC are functions of the length, the input and the tables.
-/
theorem resultDependsOnlyOnTheInputs : Obligations.ResultDependsOnlyOnTheInputs := by
  unfold Obligations.ResultDependsOnlyOnTheInputs
  intro i s s' t t' hi hinLen hcells halpha hdect hexec hexec'
  exact exec_codec_agrees hinLen (State.input_congr hinLen hcells) halpha hdect hi hexec hexec'

/-- LDA commits or refuses again what it committed or refused. -/
theorem exec_lda_again {s t u : State} (hexec : exec .lda s = .next t)
    (hagain : exec .lda t = .next u) :
    u.err = t.err ∧ u.outLen = t.outLen ∧ u.alpha = t.alpha ∧ u.dect = t.dect := by
  by_cases h : s.inLen.toNat = 58 ∧ alphabetWellFormed s.ibufTable = true
  · obtain rfl := next_unique (exec_lda_of_wellFormed h.1 h.2) hexec
    obtain rfl := next_unique (exec_lda_of_wellFormed (s := s.commitAlphabet _) h.1 h.2) hagain
    exact ⟨rfl, rfl, rfl, rfl⟩
  · have hbad (h58 : s.inLen.toNat = 58) : alphabetWellFormed s.ibufTable ≠ true :=
      fun hwf => h ⟨h58, hwf⟩
    obtain rfl := next_unique (exec_lda_of_not_wellFormed hbad) hexec
    obtain rfl := next_unique (exec_lda_of_not_wellFormed (s := s.raise _) hbad) hagain
    exact ⟨rfl, rfl, rfl, rfl⟩

/-- Settles O41: ENC and DEC leave their inputs as they are; after LDA and SELA OUT_LEN is 0, and
they make the same alphabet active again. -/
theorem repeatedCommandsGiveTheSameResult : Obligations.RepeatedCommandsGiveTheSameResult := by
  unfold Obligations.RepeatedCommandsGiveTheSameResult
  intro i s t u hi hexec hagain
  have hcodec (hi : i = .enc ∨ i = .dec) : u.err = t.err ∧ u.outLen = t.outLen ∧
      u.output = t.output ∧ u.alpha = t.alpha ∧ u.dect = t.dect := by
    obtain ⟨hinLen, hibuf, halpha, hdect, hdraws, -⟩ := encodeAndDecodeFrame i s t hi hexec
    obtain ⟨-, -, halpha', hdect', -⟩ := encodeAndDecodeFrame i t u hi hagain
    have hinput : t.input = s.input :=
      State.input_congr hinLen fun k _ => by simp only [State.ibufCell, hibuf, hdraws]
    obtain ⟨herr, houtLen, hout⟩ := exec_codec_agrees hinLen hinput halpha hdect hi hexec hagain
    exact ⟨herr, houtLen, hout, halpha', hdect'⟩
  have hempty (hi : i = .lda ∨ ∃ k, i = .sela k) : u.output = t.output := by
    obtain ⟨-, -, -, -, -, -, ht, -⟩ := alphabetCommandsFrame i s t hi hexec
    obtain ⟨-, -, -, -, -, -, hu, -⟩ := alphabetCommandsFrame i t u hi hagain
    rw [State.output_of_outLen_eq_zero ht, State.output_of_outLen_eq_zero hu]
  obtain rfl | rfl | rfl | ⟨k, rfl⟩ := hi
  · exact hcodec (.inl rfl)
  · exact hcodec (.inr rfl)
  · obtain ⟨herr, houtLen, halpha, hdect⟩ := exec_lda_again hexec hagain
    exact ⟨herr, houtLen, hempty (.inl rfl), halpha, hdect⟩
  · have hout := hempty (.inr ⟨k, rfl⟩)
    obtain rfl := next_unique (exec_sela k _) hexec
    obtain rfl := next_unique (exec_sela k _) hagain
    exact ⟨rfl, rfl, hout, rfl, rfl⟩

end Sys2Proof.Machine

/-! PROOFS. The host's two transactions and what every instruction can do (20_memory.md R42 to R46,
00_scope.md R12): frames of RD and WR, and the encodings the transactions come in. -/

namespace Sys2Proof.Machine

/-! ### Frames of RD and WR -/

/-- Settles O12: the list of values read is no part of what any location holds. -/
theorem readFrame : Obligations.ReadFrame := by
  unfold Obligations.ReadFrame
  intro a s t hexec
  obtain rfl := next_unique (exec_rd a s) hexec
  exact ⟨rfl, rfl, fun _ => rfl⟩

/-- A write to IN_LEN leaves every other location as it was. -/
theorem State.memRead_writeInLen_other (s : State) (v : Word) {b : Index} (hb : b.toNat ≠ 0x002) :
    (s.writeInLen v).memRead b = s.memRead b :=
  State.memRead_congr (fun _ => rfl) (absurd · hb) (fun _ => rfl) (fun _ _ => rfl) (fun _ _ => rfl)
    (fun _ => rfl) (fun _ => rfl)

/-- A write to a cell of IBUF leaves every other location as it was. -/
theorem State.memRead_writeIbuf_other (s : State) (v : Word) {b : Index} {i : Nat}
    (hb : b.toNat ≠ 0x100 + i) : (s.writeIbuf i v).memRead b = s.memRead b :=
  State.memRead_congr (fun _ => rfl) (fun _ => rfl) (fun _ => rfl)
    (fun k hk => s.ibufCell_writeIbuf_other v (by omega)) (fun _ _ => rfl) (fun _ => rfl)
    (fun _ => rfl)

/-- Settles O13: a write outside CMD is one to IN_LEN, one to a cell of IBUF, or ignored. -/
theorem writeFrame : Obligations.WriteFrame := by
  unfold Obligations.WriteFrame
  intro a v s hcmd
  have hother {b : Index} (hb : b ≠ a) : b.toNat ≠ a.toNat := fun h => hb (BitVec.eq_of_toNat_eq h)
  by_cases hlen : a.toNat = 0x002
  · refine ⟨s.writeInLen v, exec_wr_inLen hlen,
      fun b hb => s.memRead_writeInLen_other v (hlen ▸ hother hb),
      fun _ => State.memRead_inLen hlen, fun h => absurd h (by omega), fun h => absurd hlen h,
      fun h => absurd hlen h, fun _ => rfl, rfl, rfl, rfl, rfl, rfl, rfl, rfl, rfl⟩
  by_cases hbuf : 0x100 ≤ a.toNat ∧ a.toNat < 0x200
  · obtain ⟨i, hi⟩ := Nat.exists_eq_add_of_le hbuf.1
    have hi256 : i < 256 := by omega
    refine ⟨s.writeIbuf i v, exec_wr_ibuf hi256 hi,
      fun b hb => s.memRead_writeIbuf_other v (hi ▸ hother hb), fun h => absurd h hlen,
      fun _ => ?_, fun _ h => absurd hbuf h, fun _ => rfl, fun h => absurd hbuf h,
      rfl, rfl, rfl, rfl, rfl, rfl, rfl, rfl⟩
    rw [State.memRead_ibuf hi256 hi, s.ibufCell_writeIbuf_same]
  · exact ⟨s, exec_wr_of_not_writable hcmd hlen hbuf, fun _ _ => rfl, fun h => absurd h hlen,
      fun h => absurd h hbuf, fun _ _ => rfl, fun _ => rfl, fun _ => rfl, rfl, rfl, rfl, rfl, rfl,
      rfl, rfl, rfl⟩

/-! ### Transaction records -/

/-- A record is its three Format T fields `we`, `addr` and `wdata` (30_encoding.md R66). -/
theorem recordFields_append (r : BitVec 45) :
    r.extractLsb' 44 1 ++ r.extractLsb' 32 12 ++ r.extractLsb' 0 32 = r := by
  rw [BitVec.extractLsb'_append_extractLsb'_eq_extractLsb' (by decide : 44 = 32 + 12),
    BitVec.extractLsb'_append_extractLsb'_eq_extractLsb' (by decide : 32 = 0 + 32),
    BitVec.extractLsb'_eq_self]

/-- The fields of a record that is put together from them. -/
theorem recordFields_of_append (we : BitVec 1) (addr : BitVec 12) (v : BitVec 32) :
    (we ++ addr ++ v).extractLsb' 44 1 = we ∧ (we ++ addr ++ v).extractLsb' 32 12 = addr ∧
      (we ++ addr ++ v).extractLsb' 0 32 = v := by
  refine ⟨?we, ?addr, ?wdata⟩
  case we =>
    rw [BitVec.extractLsb'_append_eq_of_le (by decide)]
    exact BitVec.extractLsb'_append_eq_left
  case addr =>
    rw [BitVec.extractLsb'_append_eq_of_le (by decide)]
    exact BitVec.extractLsb'_append_eq_right
  case wdata => exact BitVec.extractLsb'_append_eq_right

theorem decodeRecord_recordRead (addr : BitVec 12) : decodeRecord (recordRead addr) = .rd addr := by
  obtain ⟨hwe, haddr, -⟩ := recordFields_of_append 0#1 addr 0#32
  simp only [decodeRecord, recordRead, hwe, haddr]
  rfl

theorem decodeRecord_recordWrite (addr : BitVec 12) (v : BitVec 32) :
    decodeRecord (recordWrite addr v) = .wr addr v := by
  obtain ⟨hwe, haddr, hv⟩ := recordFields_of_append 1#1 addr v
  simp only [decodeRecord, recordWrite, hwe, haddr, hv, if_true]

theorem decode_command_encodeCmd (c : Command) :
    decode (.command (encodeCmd c)) = .ok c.toInstr := by
  simp only [decode, decodeCmd_encodeCmd]

/-- Every instruction decodes from its line (30_encoding.md R57 to R60, R66). -/
@[simp] theorem decode_encode (i : Instr) : decode (encode i) = .ok i := by
  cases i with
  | enc => exact decode_command_encodeCmd .enc
  | dec => exact decode_command_encodeCmd .dec
  | lda => exact decode_command_encodeCmd .lda
  | sela k => exact decode_command_encodeCmd (.sela k)
  | rd addr => exact congrArg _ (decodeRecord_recordRead addr)
  | wr addr v => exact congrArg _ (decodeRecord_recordWrite addr v)

/-- Encoding a decoded record writes the ignored bits of a read as 0 (30_encoding.md R66). -/
theorem encode_decodeRecord (r : BitVec 45) :
    encode (decodeRecord r) =
      .transaction (if r.extractLsb' 44 1 = 1#1 then r else r.extractLsb' 32 13 ++ 0#32) := by
  simp only [decodeRecord]
  split_ifs with hwe
  · rw [encode, recordWrite, ← hwe, recordFields_append]
  · have hread : r.extractLsb' 44 1 = 0#1 := (BitVec.eq_zero_or_eq_one _).resolve_right hwe
    rw [encode, recordRead, ← hread,
      BitVec.extractLsb'_append_extractLsb'_eq_extractLsb' (by decide : 44 = 32 + 12)]

/-- Settles O2: commands and words are inverse to each other, and so are transactions and records.
-/
theorem decodeAndEncodeAgree : Obligations.DecodeAndEncodeAgree := by
  unfold Obligations.DecodeAndEncodeAgree
  exact ⟨decode_encode, fun _ _ => encodeCmd_of_decodeCmd, encode_decodeRecord⟩

/-- Settles O3: the listed words and records, evaluated. -/
theorem wordsOfTheSpecDecode : Obligations.WordsOfTheSpecDecode := by
  unfold Obligations.WordsOfTheSpecDecode
  decide

end Sys2Proof.Machine

/-! PROOFS. The whole machine (00_scope.md R11, R12): what every instruction and every step can do,
said once; then that they complete, that they keep the invariant, and what changes the registers. -/

namespace Sys2Proof.Machine

/-! ### What an instruction can do -/

/-- The instruction runs this command, by its own line or as a write of its word to CMD
(30_encoding.md R65). -/
def Runs (i : Instr) (c : Command) : Prop :=
  i = c.toInstr ∨ ∃ a w, i = .wr a w ∧ a.toNat = 0x000 ∧ decodeCmd w = .ok c

/-- The states an instruction can leave. -/
inductive Effect (i : Instr) (s : State) : State → Prop
  | command {t : State} (c : Command) (hi : Runs i c) (ht : EndsAs c s t) : Effect i s t
  | illegal (a : Index) (w : Word) (hi : i = .wr a w) (ha : a.toNat = 0x000) :
      Effect i s (s.raise .illegalCommand)
  | read (v : Word) : Effect i s (s.returnRead v)
  | writeInLen (a : Index) (w : Word) (hi : i = .wr a w) (ha : a.toNat = 0x002) :
      Effect i s (s.writeInLen w)
  | writeIbuf (a : Index) (w : Word) (k : Nat) (hi : i = .wr a w) (hk : k < 256)
      (ha : a.toNat = 0x100 + k) : Effect i s (s.writeIbuf k w)
  | ignored : Effect i s s

/-- A write completes with one of these effects, by what its location is (20_memory.md R43, R45). -/
theorem exec_wr_effect (a : Index) (w : Word) (s : State) :
    ∃ t, exec (.wr a w) s = .next t ∧ Effect (.wr a w) s t := by
  by_cases hcmd : a.toNat = 0x000
  · cases hw : decodeCmd w with
    | ok c =>
      obtain ⟨t, hexec, hends⟩ := exec_toInstr c s
      exact ⟨t, (exec_wr_cmd_ok hcmd hw).trans hexec, .command c (.inr ⟨a, w, rfl, hcmd, hw⟩) hends⟩
    | error e => exact ⟨_, exec_wr_cmd_error hcmd hw, .illegal a w rfl hcmd⟩
  by_cases hlen : a.toNat = 0x002
  · exact ⟨_, exec_wr_inLen hlen, .writeInLen a w rfl hlen⟩
  by_cases hbuf : 0x100 ≤ a.toNat ∧ a.toNat < 0x200
  · obtain ⟨k, hk⟩ := Nat.exists_eq_add_of_le hbuf.1
    have hk256 : k < 256 := by omega
    exact ⟨_, exec_wr_ibuf hk256 hk, .writeIbuf a w k rfl hk256 hk⟩
  · exact ⟨s, exec_wr_of_not_writable hcmd hlen hbuf, .ignored⟩

/-- Every instruction completes, with one of these effects (00_scope.md R12). -/
theorem exec_effect (i : Instr) (s : State) : ∃ t, exec i s = .next t ∧ Effect i s t := by
  have hcommand (c : Command) : ∃ t, exec c.toInstr s = .next t ∧ Effect c.toInstr s t := by
    obtain ⟨t, hexec, hends⟩ := exec_toInstr c s
    exact ⟨t, hexec, .command c (.inl rfl) hends⟩
  cases i with
  | enc => exact hcommand .enc
  | dec => exact hcommand .dec
  | lda => exact hcommand .lda
  | sela k => exact hcommand (.sela k)
  | rd a => exact ⟨_, exec_rd a s, .read _⟩
  | wr a w => exact exec_wr_effect a w s

theorem effect_of_exec {i : Instr} {s t : State} (h : exec i s = .next t) : Effect i s t := by
  obtain ⟨t', h', heffect⟩ := exec_effect i s
  obtain rfl := next_unique h' h
  exact heffect

/-! ### What a step can do -/

/-- An illegal word is the one error of DecodeCmd (30_encoding.md R65). -/
theorem decodeCmd_error {w : Word} {e : DecodeError} (h : decodeCmd w = .error e) :
    e = .illegalCommand := by
  simp only [decodeCmd] at h
  split_ifs at h <;> exact (Except.error.inj h).symm

theorem eq_reset_of_decode {h : HostStep} (hd : decode h = .error .resetLine) : h = .reset := by
  cases h with
  | command w =>
    cases hw : decodeCmd w with
    | ok c => simp [decode, hw] at hd
    | error e =>
      simp only [decode, hw, decodeCmd_error hw] at hd
      cases hd
  | transaction r => cases hd
  | reset => rfl

theorem eq_command_of_decode_illegal {h : HostStep} (hd : decode h = .error .illegalCommand) :
    ∃ w, h = .command w := by
  cases h with
  | command w => exact ⟨w, rfl⟩
  | transaction r => cases hd
  | reset => cases hd

/-- No transaction record is a command by its mnemonic (30_encoding.md R66). -/
theorem eq_command_of_decode_toInstr {h : HostStep} {c : Command}
    (hd : decode h = .ok c.toInstr) : ∃ w, h = .command w := by
  cases h with
  | command w => exact ⟨w, rfl⟩
  | transaction r =>
    simp only [decode, decodeRecord, Except.ok.injEq] at hd
    split_ifs at hd <;> cases c <;> cases hd
  | reset => cases hd

/-- A step that leaves a state took the next line of the script: Reset, an illegal word, or an
instruction; with no line it held the state (60_exceptions.md R157). -/
theorem step_effect {s t : State} (hstep : step s = .next t) :
    t = s ∨ ∃ h rest, s.script = h :: rest ∧
      (h = .reset ∧ t = State.resetStep { s with script := rest } ∨
      (∃ w, h = .command w) ∧ t = State.raise { s with script := rest } .illegalCommand ∨
      ∃ i, decode h = .ok i ∧ Effect i { s with script := rest } t) := by
  obtain ⟨-, hs⟩ | ⟨h, rest, i, hscript, hd, hs⟩ | ⟨h, rest, hscript, hd, hs⟩ |
    ⟨h, rest, hscript, hd, hs⟩ := step_cases s
  · exact .inl (next_unique hstep hs)
  · exact .inr ⟨h, rest, hscript, .inr (.inr ⟨i, hd, effect_of_exec (hs.symm.trans hstep)⟩)⟩
  · exact .inr ⟨h, rest, hscript,
      .inr (.inl ⟨eq_command_of_decode_illegal hd, next_unique hstep hs⟩)⟩
  · exact .inr ⟨h, rest, hscript, .inl ⟨eq_reset_of_decode hd, next_unique hstep hs⟩⟩

/-- Settles O9: an instruction has one of its effects, and a step is an instruction, an error, Reset
or nothing. -/
theorem everyStepHasANextState : Obligations.EveryStepHasANextState := by
  unfold Obligations.EveryStepHasANextState
  have hexec (i : Instr) (s : State) : Completes (exec i s) := (exec_effect i s).imp fun _ h => h.1
  refine ⟨hexec, fun s => ?_⟩
  obtain ⟨-, hs⟩ | ⟨h, rest, i, -, -, hs⟩ | ⟨h, rest, -, -, hs⟩ | ⟨h, rest, -, -, hs⟩ :=
    step_cases s
  · exact ⟨_, hs⟩
  · rw [hs]
    exact hexec i _
  · exact ⟨_, hs⟩
  · exact ⟨_, hs⟩

/-! ### The invariant -/

theorem errCode_legal {e : Err} (he : e ≠ .numericOverflow) :
    (errCode e).toNat ≤ 6 ∧ errCode e ≠ errCode .numericOverflow := by
  revert he
  cases e <;> decide

theorem okCode_legal : okCode.toNat ≤ 6 ∧ okCode ≠ errCode .numericOverflow := by decide

section Invariant

variable {s : State} (hs : Inv s)
include hs

theorem Inv.setScript (rest : List HostStep) : Inv { s with script := rest } :=
  ⟨hs.alphabet, hs.ibufCanonical, hs.ibufWithin, hs.obufCanonical, hs.obufWithin, hs.errLegal,
    hs.outLenBounded⟩

theorem Inv.raise {e : Err} (he : e ≠ .numericOverflow) : Inv (s.raise e) :=
  { alphabet := hs.alphabet
    ibufCanonical := hs.ibufCanonical
    ibufWithin := hs.ibufWithin
    obufCanonical := hs.obufCanonical
    obufWithin := hs.obufWithin
    errLegal := errCode_legal he
    outLenBounded := Nat.zero_le _ }

theorem Inv.commitResult {out : List Byte} (hlen : out.length ≤ Config.outMax) :
    Inv (s.commitResult out) :=
  { alphabet := hs.alphabet
    ibufCanonical := hs.ibufCanonical
    ibufWithin := hs.ibufWithin
    obufCanonical := Memory.writeList_wf out s.obuf 0 hs.obufCanonical
    obufWithin := Memory.writeList_within _ out s.obuf 0 (by rwa [Nat.zero_add]) hs.obufWithin
    errLegal := okCode_legal
    outLenBounded :=
      (s.outLen_commitResult_toNat (hlen.trans_lt (by norm_num))).trans_le hlen }

theorem Inv.commitAlphabet {A : Vector Byte 58} (hwf : alphabetWellFormed A = true) :
    Inv (s.commitAlphabet A) :=
  { alphabet := alphabetInv_buildDect hwf
    ibufCanonical := hs.ibufCanonical
    ibufWithin := hs.ibufWithin
    obufCanonical := hs.obufCanonical
    obufWithin := hs.obufWithin
    errLegal := okCode_legal
    outLenBounded := Nat.zero_le _ }

theorem Inv.returnRead (v : Word) : Inv (s.returnRead v) :=
  ⟨hs.alphabet, hs.ibufCanonical, hs.ibufWithin, hs.obufCanonical, hs.obufWithin, hs.errLegal,
    hs.outLenBounded⟩

theorem Inv.writeInLen (v : Word) : Inv (s.writeInLen v) :=
  ⟨hs.alphabet, hs.ibufCanonical, hs.ibufWithin, hs.obufCanonical, hs.obufWithin, hs.errLegal,
    hs.outLenBounded⟩

theorem Inv.writeIbuf {k : Nat} (hk : k < 256) (v : Word) : Inv (s.writeIbuf k v) :=
  { alphabet := hs.alphabet
    ibufCanonical := Memory.write_wf s.ibuf k _ hs.ibufCanonical
    ibufWithin := Memory.write_within _ s.ibuf k _ hk hs.ibufWithin
    obufCanonical := hs.obufCanonical
    obufWithin := hs.obufWithin
    errLegal := hs.errLegal
    outLenBounded := hs.outLenBounded }

/-- Every way a command ends keeps the invariant, which rules NumericOverflow out. -/
theorem Inv.endsAs {c : Command} {t : State} (h : EndsAs c s t) : Inv t := by
  cases h with
  | raised e he => exact hs.raise (he hs.alphabet)
  | result out _ hlen => exact hs.commitResult hlen
  | alphabet A _ hwf => exact hs.commitAlphabet hwf

theorem Inv.effect {i : Instr} {t : State} (h : Effect i s t) : Inv t := by
  cases h with
  | command c _ ht => exact hs.endsAs ht
  | illegal => exact hs.raise (by decide)
  | read v => exact hs.returnRead v
  | writeInLen a w => exact hs.writeInLen w
  | writeIbuf a w k _ hk => exact hs.writeIbuf hk w
  | ignored => exact hs

end Invariant

/-- Reset meets the invariant from any state. -/
theorem inv_resetStep (s : State) : Inv s.resetStep :=
  { alphabet := alphabetInv_buildDect (roma_wellFormed 0#1)
    ibufCanonical := rfl
    ibufWithin := rfl
    obufCanonical := rfl
    obufWithin := rfl
    errLegal := okCode_legal
    outLenBounded := Nat.zero_le _ }

/-- Settles O47: no buffer cell is written and predefined alphabet 0 is active. -/
theorem resetMeetsTheInvariant : Obligations.ResetMeetsTheInvariant := by
  unfold Obligations.ResetMeetsTheInvariant
  exact ⟨alphabetInv_buildDect (roma_wellFormed 0#1), rfl, rfl, rfl, rfl, okCode_legal,
    Nat.zero_le _⟩

/-- Settles O46: every effect keeps the invariant, and Reset establishes it. -/
theorem everyStepKeepsTheInvariant : Obligations.EveryStepKeepsTheInvariant := by
  unfold Obligations.EveryStepKeepsTheInvariant
  intro s t hs hstep
  obtain rfl | ⟨h, rest, -, ⟨-, rfl⟩ | ⟨-, rfl⟩ | ⟨i, -, heffect⟩⟩ := step_effect hstep
  · exact hs
  · exact inv_resetStep _
  · exact (hs.setScript rest).raise (by decide)
  · exact (hs.setScript rest).effect heffect

/-! ### What changes the registers -/

/-- An instruction that changes the active alphabet runs LDA or SELA. -/
theorem Effect.of_alphabet_ne {i : Instr} {s t : State} (h : Effect i s t)
    (hne : t.alpha ≠ s.alpha ∨ t.dect ≠ s.dect) :
    ∃ c, Runs i c ∧ (c = .lda ∨ ∃ k, c = .sela k) := by
  cases h with
  | command c hi ht =>
    cases ht with
    | raised => simp at hne
    | result => simp at hne
    | alphabet A hc => exact ⟨c, hi, hc⟩
  | illegal => simp at hne
  | read => simp at hne
  | writeInLen => simp at hne
  | writeIbuf => simp at hne
  | ignored => simp at hne

/-- Settles O20: only the commit of an alphabet changes the tables, and only LDA and SELA make it.
-/
theorem onlyResetSelaAndLdaChangeTheAlphabet :
    Obligations.OnlyResetSelaAndLdaChangeTheAlphabet := by
  unfold Obligations.OnlyResetSelaAndLdaChangeTheAlphabet
  intro s t hstep hne
  obtain rfl | ⟨h, rest, hscript, ⟨hreset, -⟩ | ⟨-, rfl⟩ | ⟨i, hd, heffect⟩⟩ := step_effect hstep
  · simp at hne
  · exact ⟨h, rest, hscript, .inl hreset⟩
  · simp at hne
  · refine ⟨h, rest, hscript, .inr ?_⟩
    obtain ⟨c, rfl | ⟨a, w, rfl, ha, hw⟩, rfl | ⟨k, rfl⟩⟩ := heffect.of_alphabet_ne hne
    · exact .inl hd
    · exact .inr (.inl ⟨k, hd⟩)
    · exact .inr (.inr ⟨a, w, hd, ha, .inl hw⟩)
    · exact .inr (.inr ⟨a, w, hd, ha, .inr ⟨k, hw⟩⟩)

/-- An instruction that changes STATUS.ERR or OUT_LEN runs a command or writes CMD. -/
theorem Effect.of_status_ne {i : Instr} {s t : State} (h : Effect i s t)
    (hne : t.err ≠ s.err ∨ t.outLen ≠ s.outLen) :
    (∃ c : Command, i = c.toInstr) ∨ ∃ a w, i = .wr a w ∧ a.toNat = 0x000 := by
  cases h with
  | command c hi =>
    obtain hi | ⟨a, w, hi, ha, -⟩ := hi
    · exact .inl ⟨c, hi⟩
    · exact .inr ⟨a, w, hi, ha⟩
  | illegal a w hi ha => exact .inr ⟨a, w, hi, ha⟩
  | read => simp at hne
  | writeInLen => simp at hne
  | writeIbuf => simp at hne
  | ignored => simp at hne

/-- Settles O48: a read, a store and an ignored write leave STATUS.ERR and OUT_LEN. -/
theorem onlyCommandsAndResetChangeTheStatus : Obligations.OnlyCommandsAndResetChangeTheStatus := by
  unfold Obligations.OnlyCommandsAndResetChangeTheStatus
  intro s t hstep hne
  obtain rfl | ⟨h, rest, hscript, hline⟩ := step_effect hstep
  · simp at hne
  refine ⟨h, rest, hscript, ?_⟩
  obtain ⟨hreset, -⟩ | ⟨hword, -⟩ | ⟨i, hd, heffect⟩ := hline
  · exact .inl hreset
  · exact .inr (.inl hword)
  · obtain ⟨c, rfl⟩ | ⟨a, w, rfl, ha⟩ := heffect.of_status_ne hne
    · exact .inr (.inl (eq_command_of_decode_toInstr hd))
    · exact .inr (.inr ⟨a, w, hd, ha⟩)

/-- An instruction that changes IN_LEN or IBUF is a write to it. -/
theorem Effect.of_input_ne {i : Instr} {s t : State} (h : Effect i s t)
    (hne : t.inLen ≠ s.inLen ∨ t.ibuf ≠ s.ibuf) :
    ∃ a w, i = .wr a w ∧ (a.toNat = 0x002 ∨ (0x100 ≤ a.toNat ∧ a.toNat < 0x200)) := by
  cases h with
  | command c hi ht => cases ht <;> simp at hne
  | illegal => simp at hne
  | read => simp at hne
  | writeInLen a w hi ha => exact ⟨a, w, hi, .inl ha⟩
  | writeIbuf a w k hi hk ha => exact ⟨a, w, hi, .inr (by omega)⟩
  | ignored => simp at hne

/-- Settles O49: no way a command ends changes IN_LEN or IBUF. -/
theorem onlyHostWritesAndResetChangeTheInput :
    Obligations.OnlyHostWritesAndResetChangeTheInput := by
  unfold Obligations.OnlyHostWritesAndResetChangeTheInput
  intro s t hstep hne
  obtain rfl | ⟨h, rest, hscript, ⟨hreset, -⟩ | ⟨-, rfl⟩ | ⟨i, hd, heffect⟩⟩ := step_effect hstep
  · simp at hne
  · exact ⟨h, rest, hscript, .inl hreset⟩
  · simp at hne
  · obtain ⟨a, w, rfl, ha⟩ := heffect.of_input_ne hne
    exact ⟨h, rest, hscript, .inr ⟨a, w, hd, ha⟩⟩

/-! ### Single steps -/

/-- Settles O4: the line is taken off the script, and its instruction runs. -/
theorem stepRunsTheDecodedInstruction : Obligations.StepRunsTheDecodedInstruction := by
  unfold Obligations.StepRunsTheDecodedInstruction
  intro s h rest i hscript hd
  simp only [step, fetch, fetchLine, hscript, hd]

/-- A table row that decodes is a line that decodes. -/
theorem decode_tableStep {nbits w : Nat} {i : Instr} (h : decodeTableWord nbits w = some i) :
    decode (tableStep nbits w) = .ok i := by
  unfold decodeTableWord at h
  split_ifs at h
  split at h
  next j hj => rw [hj, Option.some.inj h]
  next => cases h

/-- Settles O5: the placed line is the next one, and taking it off leaves the script as it was. -/
theorem placedWordRunsNext : Obligations.PlacedWordRunsNext := by
  unfold Obligations.PlacedWordRunsNext
  intro s nbits w i h
  exact stepRunsTheDecodedInstruction (s.withFetchWord nbits w) _ s.script i rfl
    (decode_tableStep h)

/-- Settles O6: a word that decodes to nothing raises IllegalCommand; the empty script idles. -/
theorem stepOnIllegalWordAndOnEmptyScript : Obligations.StepOnIllegalWordAndOnEmptyScript := by
  unfold Obligations.StepOnIllegalWordAndOnEmptyScript
  constructor
  · intro s w rest e hscript hw
    have hd : decode (.command w) = .error e := by simp only [decode, hw]
    cases e with
    | illegalCommand =>
      simp only [step, fetch, fetchLine, hscript, hd]
      rfl
    | resetLine => exact nomatch eq_reset_of_decode hd
  · intro s hscript
    simp only [step, fetch, hscript]

/-- Settles O7: Reset builds its state anew, with the next draw. -/
theorem resetStepGivesTheResetState : Obligations.ResetStepGivesTheResetState := by
  unfold Obligations.ResetStepGivesTheResetState
  intro s rest hscript
  have hstep : step s = .next (State.resetStep { s with script := rest }) := by
    simp only [step, fetch, fetchLine, hscript, decode]
  exact ⟨s.draws + 1, _, hstep, rfl, rfl, rfl, rfl, rfl, (inv_resetStep _).alphabet, fun _ => rfl,
    fun _ => rfl⟩

end Sys2Proof.Machine

/-! PROOFS. Host scripts (30_encoding.md R63, R64): what a line, PUT, a load of an alphabet and the
reads after a command make of a state, and the statements about the scripts of the facade
(43_reference_and_properties.md R126). -/

namespace Sys2Proof.Machine

/-! ### Lines -/

/-- The state in which a script that led to it has been run to its end. -/
def State.idle (s : State) : State := { s with script := [] }

theorem hostRun_nil_eq (s : State) : hostRun [] s = .next s.idle := rfl

/-- The line of an instruction runs it, whatever follows. -/
theorem hostRun_encode {i : Instr} {s t : State} (h : exec i s = .next t) (rest : List HostStep) :
    hostRun (encode i :: rest) s = hostRun rest t := by
  have hexec : exec i { s with script := rest } = .next { t with script := rest } := by
    rw [exec_script, h]
    rfl
  rw [hostRun_cons (encode i) rest i s _ (decode_encode i) hexec rfl, hostRun_script]

/-- A Reset line is the Reset step (70_reset_and_hazards.md R162). -/
theorem hostRun_reset (s : State) : hostRun [.reset] s = .next s.resetStep.idle := rfl

/-- Settles O8: SELA 0 sets all but IN_LEN, which the write sets. -/
theorem selaZeroReachesTheResetControlState :
    Obligations.SelaZeroReachesTheResetControlState := by
  unfold Obligations.SelaZeroReachesTheResetControlState
  intro s
  rw [hostRun_encode (exec_sela 0#1 s), hostRun_encode (exec_wr_inLen rfl), hostRun_nil_eq]
  exact ⟨_, rfl, rfl, rfl, rfl, rfl, rfl⟩

/-! ### PUT -/

theorem toNat_ofNat_location {n : Nat} (h : n < 4096) : (BitVec.ofNat 12 n).toNat = n :=
  Nat.mod_eq_of_lt h

theorem extractLsb'_setWidth_byte (b : Byte) : (b.setWidth 32).extractLsb' 0 8 = b := by
  have hb : b.toNat < 2 ^ 8 := b.isLt
  refine BitVec.eq_of_toNat_eq ?_
  rw [BitVec.extractLsb'_toNat, BitVec.toNat_setWidth, Nat.shiftRight_zero]
  omega

/-- The writes of PUT place their bytes in consecutive cells of IBUF. -/
theorem hostRun_putCells (bs : List Byte) (i : Nat) (rest : List HostStep) (s : State)
    (hi : i + bs.length ≤ 256) :
    hostRun (putCells i bs ++ rest) s =
      hostRun rest { s with ibuf := Memory.writeList s.ibuf i bs } := by
  induction bs generalizing i s with
  | nil => rfl
  | cons b bs ih =>
    rw [List.length_cons] at hi
    have haddr : (BitVec.ofNat 12 (ibufBase + i)).toNat = 0x100 + i :=
      toNat_ofNat_location (by unfold ibufBase; omega)
    rw [putCells, List.cons_append, wrLine, hostRun_encode (exec_wr_ibuf (by omega) haddr),
      ih (i + 1) _ (by omega), State.writeIbuf, extractLsb'_setWidth_byte]
    rfl

/-- What PUT leaves (30_encoding.md R64). -/
def State.put (s : State) (bs : List Byte) : State :=
  { s with ibuf := Memory.writeList s.ibuf 0 bs, inLen := BitVec.ofNat 16 bs.length }

@[simp] theorem State.put_alpha (s : State) (bs : List Byte) : (s.put bs).alpha = s.alpha := rfl

@[simp] theorem State.put_dect (s : State) (bs : List Byte) : (s.put bs).dect = s.dect := rfl

theorem extractLsb'_length (n : Nat) :
    (BitVec.ofNat 32 n).extractLsb' 0 16 = BitVec.ofNat 16 n := by
  refine BitVec.eq_of_toNat_eq ?_
  rw [BitVec.extractLsb'_toNat, BitVec.toNat_ofNat, BitVec.toNat_ofNat, Nat.shiftRight_zero]
  exact Nat.mod_mod_of_dvd n (by norm_num)

theorem hostRun_putScript {bs : List Byte} (h : bs.length ≤ 256) (rest : List HostStep)
    (s : State) :
    hostRun (putScript bs ++ rest) s = hostRun rest (s.put bs) := by
  rw [putScript, List.append_assoc, hostRun_putCells bs 0 _ s (by omega), List.singleton_append,
    wrLine, hostRun_encode (exec_wr_inLen rfl), extractLsb'_length]
  rfl

section Put

variable (s : State) {bs : List Byte}

theorem State.put_inLen_toNat (h : bs.length ≤ 256) : (s.put bs).inLen.toNat = bs.length := by
  simp only [State.put, BitVec.toNat_ofNat]
  omega

theorem State.ibufCell_put_inside {k : Nat} (hk : k < bs.length) :
    (s.put bs).ibufCell k = bs[k] := by
  have hread := Memory.read?_writeList_inside bs s.ibuf 0 k hk
  rw [Nat.zero_add] at hread
  simp only [State.ibufCell, State.put, hread, Option.getD_some]

theorem State.ibufCell_put_outside {k : Nat} (hk : bs.length ≤ k) :
    (s.put bs).ibufCell k = s.ibufCell k := by
  have hread := Memory.read?_writeList_outside bs s.ibuf 0 k (by omega)
  simp only [State.ibufCell, State.put, hread]

theorem State.put_input (h : bs.length ≤ 256) : (s.put bs).input = bs := by
  have hlen : (s.put bs).input.length = bs.length := by
    rw [State.input_length, s.put_inLen_toNat h]
  refine List.ext_getElem hlen fun k hk hk' => ?_
  rw [State.input_getElem, s.ibufCell_put_inside hk']

end Put

/-- Settles O50: PUT's writes place the bytes, and its last write their number. -/
theorem putPlacesTheInput : Obligations.PutPlacesTheInput := by
  unfold Obligations.PutPlacesTheInput
  intro bs s h
  have hrun := hostRun_putScript h [] s
  rw [List.append_nil, hostRun_nil_eq] at hrun
  exact ⟨_, hrun, s.put_input h, s.put_inLen_toNat h, fun _ => s.ibufCell_put_outside, rfl⟩

/-! ### Reads -/

theorem hostRun_rdLine (a : Nat) (rest : List HostStep) (s : State) :
    hostRun (rdLine a :: rest) s =
      hostRun rest (s.returnRead (s.memRead (BitVec.ofNat 12 a))) :=
  hostRun_encode (exec_rd _ s) rest

/-- Reads of cells of OBUF hand them to the host in order (30_encoding.md R64). -/
theorem hostRun_readCells (ks : List Nat) (hks : ∀ k ∈ ks, k < 354) (s : State) :
    hostRun (ks.map fun k => rdLine (obufBase + k)) s =
      .next { s with
        reads := (ks.map fun k => (s.obufCell k).setWidth 32).reverse ++ s.reads
        script := [] } := by
  induction ks generalizing s with
  | nil => rfl
  | cons k ks ih =>
    rw [List.forall_mem_cons] at hks
    have haddr : (BitVec.ofNat 12 (obufBase + k)).toNat = 0x400 + k :=
      toNat_ofNat_location (by unfold obufBase; omega)
    rw [List.map_cons, hostRun_rdLine, State.memRead_obuf hks.1 haddr, ih hks.2, List.map_cons,
      List.reverse_cons, List.append_assoc]
    rfl

/-- GET of OUT_LEN cells reads the result. -/
theorem hostRun_getScript {s : State} (h : s.outLen.toNat ≤ Config.outMax) :
    hostRun (getScript s.outLen.toNat) s =
      .next { s with
        reads := (s.output.map fun c => c.setWidth 32).reverse ++ s.reads, script := [] } := by
  have hks : ∀ k ∈ List.range s.outLen.toNat, k < 354 :=
    fun k hk => (List.mem_range.1 hk).trans_le h
  rw [getScript, hostRun_readCells _ hks, State.output, List.map_map]
  rfl

/-- What the reads after a command leave: STATUS, OUT_LEN and the result, the latest first. -/
def State.readBack (s : State) : State :=
  { s with
    reads := (s.output.map fun c => c.setWidth 32).reverse ++
      s.outLen.setWidth 32 :: s.err.setWidth 32 :: s.reads
    script := [] }

theorem hostRun_readScript {s : State} (h : s.outLen.toNat ≤ Config.outMax) :
    hostRun (readScript s.outLen.toNat) s = .next s.readBack := by
  rw [readScript, hostRun_rdLine, State.memRead_status rfl, hostRun_rdLine,
    State.memRead_outLen rfl]
  exact hostRun_getScript (s := (s.returnRead _).returnRead _) h

/-- A command, then the reads of its result. -/
theorem hostRun_command_readScript {i : Instr} {s t : State} (hexec : exec i s = .next t)
    (h : t.outLen.toNat ≤ Config.outMax) :
    hostRun (encode i :: readScript t.outLen.toNat) s = .next t.readBack := by
  rw [hostRun_encode hexec, hostRun_readScript h]

/-! ### The end of ENC and DEC on what was put -/

theorem encResult_put (s : State) {B : List Byte} (h : B.length ≤ 256) :
    encResult (s.put B) = .ok (refEncode s.alpha B) := by
  have hlen : ¬(s.put B).inLen.toNat > Config.inMax :=
    Nat.not_lt.2 ((s.put_inLen_toNat h).trans_le h)
  rw [encResult, if_neg hlen, s.put_input h, State.put_alpha]

theorem decResult_put (s : State) {str : List Byte} (h : str.length ≤ 256) :
    decResult (s.put str) = decodeString s.alpha s.dect str := by
  have hlen : ¬(s.put str).inLen.toNat > Config.inMax :=
    Nat.not_lt.2 ((s.put_inLen_toNat h).trans_le h)
  rw [decResult, if_neg hlen, s.put_input h, State.put_alpha, State.put_dect]

theorem readBack_raise_reads (s : State) (e : Err) :
    (s.raise e).readBack.reads = 0#32 :: (errCode e).setWidth 32 :: s.reads := by
  rw [State.readBack, State.output_of_outLen_eq_zero rfl]
  rfl

theorem setWidth_length {n : Nat} (h : n < 65536) :
    (BitVec.ofNat 16 n).setWidth 32 = BitVec.ofNat 32 n := by
  refine BitVec.eq_of_toNat_eq ?_
  rw [BitVec.toNat_setWidth, BitVec.toNat_ofNat, BitVec.toNat_ofNat, Nat.mod_eq_of_lt h]

theorem readBack_commitResult_reads (s : State) {out : List Byte} (h : out.length ≤ Config.outMax) :
    (s.commitResult out).readBack.reads = (out.map fun c => c.setWidth 32).reverse ++
      BitVec.ofNat 32 out.length :: 0#32 :: s.reads := by
  have hshort : out.length < 65536 := h.trans_lt (by norm_num)
  rw [State.readBack, s.output_commitResult out hshort, State.commitResult_outLen,
    setWidth_length hshort]
  rfl

theorem facadeResult_raise (s : State) (e : Err) :
    facadeResult (s.raise e) = .error (errCode e) := by
  cases e <;> rfl

theorem facadeResult_commitResult (s : State) {out : List Byte} (h : out.length ≤ Config.outMax) :
    facadeResult (s.commitResult out) = .ok out :=
  congrArg Except.ok (s.output_commitResult out (h.trans_lt (by norm_num)))

theorem outLen_commitResult_le (s : State) {out : List Byte} (h : out.length ≤ Config.outMax) :
    (s.commitResult out).outLen.toNat = out.length :=
  s.outLen_commitResult_toNat (h.trans_lt (by norm_num))

/-- A command that ends with an error, and what the host then reads and answers. -/
theorem hostRun_readScript_raised {i : Instr} {s : State} {e : Err}
    (hexec : exec i s = .next (s.raise e)) :
    ∃ t, hostRun (encode i :: readScript 0) s = .next t ∧
      t.reads = 0#32 :: (errCode e).setWidth 32 :: s.reads ∧
      facadeResult t = .error (errCode e) :=
  ⟨_, hostRun_command_readScript hexec (Nat.zero_le _), readBack_raise_reads s e,
    facadeResult_raise s e⟩

/-- A command that commits a result, and what the host then reads and answers. -/
theorem hostRun_readScript_committed {i : Instr} {s : State} {out : List Byte}
    (hexec : exec i s = .next (s.commitResult out)) (h : out.length ≤ Config.outMax) :
    ∃ t, hostRun (encode i :: readScript out.length) s = .next t ∧
      t.reads = (out.map fun c => c.setWidth 32).reverse ++
        BitVec.ofNat 32 out.length :: 0#32 :: s.reads ∧
      facadeResult t = .ok out := by
  have hlen := outLen_commitResult_le s h
  have hrun := hostRun_command_readScript hexec (hlen.trans_le h)
  rw [hlen] at hrun
  exact ⟨_, hrun, readBack_commitResult_reads s h, facadeResult_commitResult s h⟩

/-! ### The scripts of the facade -/

/-- `SELA 0; PUT`, and what comes after. -/
theorem hostRun_sela_putScript {bs : List Byte} (h : bs.length ≤ 256) (rest : List HostStep)
    (s : State) :
    hostRun (encode (.sela 0#1) :: (putScript bs ++ rest)) s =
      hostRun rest ((s.commitAlphabet (Config.roma 0#1)).put bs) := by
  rw [hostRun_encode (exec_sela 0#1 s), hostRun_putScript h]

/-- Settles O51: SELA 0 and PUT leave the bytes under predefined alphabet 0, which ENC turns into
RefEncode's string. -/
theorem facadeEncodeReadsTheString : Obligations.FacadeEncodeReadsTheString := by
  unfold Obligations.FacadeEncodeReadsTheString
  intro B s h out
  have hexec := exec_enc ((s.commitAlphabet (Config.roma 0#1)).put B)
  rw [encResult_put _ h] at hexec
  rw [encodeScript, hostRun_sela_putScript h]
  exact hostRun_readScript_committed hexec (refEncode_length_le_outMax _ h)

/-- Settles O52: the same with DEC, whose error or bytes are those of RefDecode. -/
theorem facadeDecodeReadsTheBytesOrTheError : Obligations.FacadeDecodeReadsTheBytesOrTheError := by
  unfold Obligations.FacadeDecodeReadsTheBytesOrTheError
  intro str s h
  have hinv := alphabetInv_buildDect (roma_wellFormed 0#1)
  have hexec := exec_dec ((s.commitAlphabet (Config.roma 0#1)).put str)
  rw [decResult_put _ h, State.commitAlphabet_alpha, State.commitAlphabet_dect] at hexec
  simp only [decodeScript, hostRun_sela_putScript h]
  refine ⟨fun hnil => ?empty, fun out hne href => ?accepted, fun hne href => ?refused⟩
  case empty =>
    rw [hnil, decodeString_nil, ← hnil] at hexec
    exact hostRun_readScript_raised hexec
  case accepted =>
    rw [decodeString_eq_refDecode hinv hne, href] at hexec
    have hlen := (refDecode_length_le hinv.distinct href).trans h
    exact hostRun_readScript_committed hexec (hlen.trans (by norm_num))
  case refused =>
    rw [decodeString_eq_refDecode hinv hne, href] at hexec
    exact hostRun_readScript_raised hexec

/-! ### Loading an alphabet -/

/-- `PUT A; LDA; RD STATUS`. -/
theorem hostRun_loadScript {A : List Byte} (h : A.length ≤ 256) {s t : State}
    (hexec : exec .lda (s.put A) = .next t) :
    hostRun (loadScript A) s = .next (t.returnRead (t.err.setWidth 32)).idle := by
  rw [loadScript, hostRun_putScript h, hostRun_encode hexec, hostRun_rdLine,
    State.memRead_status rfl, hostRun_nil_eq]

/-- The table that LDA finds is what was put. -/
theorem ibufTable_put_toList (s : State) {A : List Byte} (h : A.length = 58) :
    (s.put A).ibufTable.toList = A := by
  rw [toList_eq_ofFn_get]
  refine List.ext_getElem (by simp [h]) fun k hk hk' => ?_
  rw [List.getElem_ofFn, State.ibufTable_get, s.ibufCell_put_inside hk']

/-- LDA of a well-formed table that was put (40_alphabet.md R74). -/
theorem exec_lda_put (s : State) {A : Vector Byte 58} (hwf : alphabetWellFormed A = true) :
    exec .lda (s.put A.toList) = .next ((s.put A.toList).commitAlphabet A) := by
  have hlen : A.toList.length = 58 := A.length_toList
  have htable : (s.put A.toList).ibufTable = A :=
    Vector.toList_inj.1 (ibufTable_put_toList s hlen)
  have hinLen : (s.put A.toList).inLen.toNat = 58 :=
    (s.put_inLen_toNat (by omega)).trans hlen
  have hexec := exec_lda_of_wellFormed hinLen (by rwa [htable])
  rwa [htable] at hexec

/-- The script that installs a well-formed table reads STATUS 0 and makes it active. -/
theorem hostRun_loadScript_of_wellFormed (s : State) {A : Vector Byte 58}
    (hwf : alphabetWellFormed A = true) :
    ∃ t, hostRun (loadScript A.toList) s = .next t ∧ t.reads = 0#32 :: s.reads ∧ t.alpha = A ∧
      AlphabetInv t.alpha t.dect ∧ t.err = 0#4 ∧ t.outLen = 0#16 := by
  have hlen : A.toList.length ≤ 256 := A.length_toList.trans_le (by norm_num)
  exact ⟨_, hostRun_loadScript hlen (exec_lda_put s hwf), rfl, rfl, alphabetInv_buildDect hwf, rfl,
    rfl⟩

/-- Settles O53: LDA finds the table that was put and accepts it. -/
theorem facadeLoadsACallersAlphabet : Obligations.FacadeLoadsACallersAlphabet := by
  unfold Obligations.FacadeLoadsACallersAlphabet
  exact fun A s hwf => hostRun_loadScript_of_wellFormed s hwf

end Sys2Proof.Machine

/-! PROOFS. The operations of the facade (43_reference_and_properties.md R126): the answer the host
makes of what it read, a conversion under the active alphabet, and the two ways of making one
active. -/

namespace Sys2Proof.Machine

/-! ### The answer -/

/-- STATUS as the host reads it says which error there was, if any. -/
theorem answerOf_status (err : BitVec 4) (cells : List Byte) :
    answerOf (err.setWidth 32) cells = if err = okCode then .ok cells else .error err := by
  have hcode : ∀ e : BitVec 4, (e.setWidth 32 = 0#32 ↔ e = okCode) ∧
      (e.setWidth 32).extractLsb' 0 4 = e := by decide
  obtain ⟨hzero, hlow⟩ := hcode err
  simp only [answerOf, hzero, hlow]

/-- The cells the host gets back from the values it read last. -/
theorem lastCells_of_reads {s : State} {out : List Byte} {before : List Word}
    (h : s.reads = (out.map fun c => c.setWidth 32).reverse ++ before) :
    s.lastCells out.length = out := by
  rw [State.lastCells, h, List.take_left' (by simp), List.reverse_reverse, List.map_map]
  exact (List.map_congr_left fun c _ => extractLsb'_setWidth_byte c).trans (List.map_id _)

theorem hostRun_rdStatus (s : State) :
    hostRun [rdLine 0x001] s = .next (s.returnRead (s.err.setWidth 32)).idle := by
  rw [hostRun_rdLine, State.memRead_status rfl, hostRun_nil_eq]

theorem hostRun_rdOutLen (s : State) :
    hostRun [rdLine 0x003] s = .next (s.returnRead (s.outLen.setWidth 32)).idle := by
  rw [hostRun_rdLine, State.memRead_outLen rfl, hostRun_nil_eq]

theorem State.lastRead_returnRead_idle (s : State) (v : Word) :
    (s.returnRead v).idle.lastRead = v := rfl

/-- The host reads as many cells as OUT_LEN says and answers the result or the error. -/
theorem readResult_eq {s : State} (h : s.outLen.toNat ≤ Config.outMax) :
    readResult s = .next (s.readBack, facadeResult s) := by
  let a := (s.returnRead (s.err.setWidth 32)).idle
  let b := (a.returnRead (a.outLen.setWidth 32)).idle
  have hstatus : hostRun [rdLine 0x001] s = .next a := hostRun_rdStatus s
  have hlength : hostRun [rdLine 0x003] a = .next b := hostRun_rdOutLen a
  have hm : b.lastRead.toNat = b.outLen.toNat :=
    (congrArg BitVec.toNat (State.lastRead_returnRead_idle a _)).trans
      (BitVec.toNat_setWidth_of_le (by norm_num))
  have hget : hostRun (getScript b.lastRead.toNat) b = .next s.readBack := by
    rw [hm]
    exact hostRun_getScript h
  have hcells : s.readBack.lastCells b.lastRead.toNat = s.output := by
    rw [hm, ← b.output_length]
    exact lastCells_of_reads rfl
  rw [readResult, hstatus, andThen_next, hlength, andThen_next, hget, andThen_next, hcells]
  exact congrArg (fun ans => Host.Outcome.next (s.readBack, ans)) (answerOf_status s.err s.output)

/-! ### A conversion under the active alphabet -/

theorem convert_of_gt (cmd : Instr) {bs : List Byte} (h : Config.inMax < bs.length) (s : State) :
    convert cmd bs s = .next (s, .error (errCode .lengthRange)) :=
  if_pos h

/-- What fits IBUF is put, converted and read back. -/
theorem convert_of_le {cmd : Instr} {bs : List Byte} {s t : State} (h : bs.length ≤ Config.inMax)
    (hexec : exec cmd (s.put bs) = .next t) (hlen : t.outLen.toNat ≤ Config.outMax) :
    convert cmd bs s = .next (t.readBack, facadeResult t) := by
  have hrun : hostRun (putScript bs ++ [encode cmd]) s = .next t.idle := by
    rw [hostRun_putScript h, hostRun_encode hexec, hostRun_nil_eq]
  rw [convert, if_neg (Nat.not_lt.2 h), hrun, andThen_next, readResult_eq (s := t.idle) hlen]
  rfl

theorem convert_of_raised {cmd : Instr} {bs : List Byte} {s : State} {e : Err}
    (h : bs.length ≤ Config.inMax) (hexec : exec cmd (s.put bs) = .next ((s.put bs).raise e)) :
    ∃ t, convert cmd bs s = .next (t, .error (errCode e)) ∧ t.alpha = s.alpha := by
  have hconvert := convert_of_le h hexec (Nat.zero_le _)
  rw [facadeResult_raise] at hconvert
  exact ⟨_, hconvert, rfl⟩

theorem convert_of_committed {cmd : Instr} {bs out : List Byte} {s : State}
    (h : bs.length ≤ Config.inMax) (hout : out.length ≤ Config.outMax)
    (hexec : exec cmd (s.put bs) = .next ((s.put bs).commitResult out)) :
    ∃ t, convert cmd bs s = .next (t, .ok out) ∧ t.alpha = s.alpha := by
  have hconvert := convert_of_le h hexec ((outLen_commitResult_le _ hout).trans_le hout)
  rw [facadeResult_commitResult _ hout] at hconvert
  exact ⟨_, hconvert, rfl⟩

/-- ENC through the facade answers RefEncode's string (43_reference_and_properties.md R126, R129).
-/
theorem convert_enc (B : List Byte) (s : State) :
    ∃ t, convert .enc B s = .next (t, encodeAnswer s.alpha B) ∧ t.alpha = s.alpha := by
  unfold encodeAnswer
  split_ifs with h
  · exact ⟨s, convert_of_gt _ h s, rfl⟩
  · have hle : B.length ≤ Config.inMax := Nat.not_lt.1 h
    have hexec := exec_enc (s.put B)
    rw [encResult_put s hle] at hexec
    exact convert_of_committed hle (refEncode_length_le_outMax _ hle) hexec

/-- DEC through the facade answers RefDecode's bytes or the kind of the error
(43_reference_and_properties.md R126, R129, R130). -/
theorem convert_dec (str : List Byte) {s : State} (hinv : AlphabetInv s.alpha s.dect) :
    ∃ t, convert .dec str s = .next (t, decodeAnswer s.alpha str) ∧ t.alpha = s.alpha := by
  unfold decodeAnswer
  split_ifs with h hnil
  · exact ⟨s, convert_of_gt _ h s, rfl⟩
  all_goals
    have hle : str.length ≤ Config.inMax := Nat.not_lt.1 h
    have hexec := exec_dec (s.put str)
    rw [decResult_put s hle] at hexec
  · rw [hnil, decodeString_nil, ← hnil] at hexec
    exact convert_of_raised hle hexec
  · rw [decodeString_eq_refDecode hinv hnil] at hexec
    cases href : refDecode s.alpha str with
    | none =>
      rw [href] at hexec
      exact convert_of_raised hle hexec
    | some out =>
      rw [href] at hexec
      have hout := (refDecode_length_le hinv.distinct href).trans hle
      exact convert_of_committed hle (hout.trans (by norm_num)) hexec

/-! ### A predefined alphabet -/

theorem convertAfter_sela (k : BitVec 1) (cmd : Instr) (bs : List Byte) (s : State) :
    convertAfter (encode (.sela k)) cmd bs s =
      convert cmd bs (s.commitAlphabet (Config.roma k)).idle := by
  rw [convertAfter, hostRun_encode (exec_sela k s), hostRun_nil_eq, andThen_next]

theorem convertAfter_reset (cmd : Instr) (bs : List Byte) (s : State) :
    convertAfter .reset cmd bs s = convert cmd bs s.resetStep.idle := by
  rw [convertAfter, hostRun_reset, andThen_next]

theorem convertAfter_sela_enc (k : BitVec 1) (B : List Byte) (s : State) :
    ∃ t, convertAfter (encode (.sela k)) .enc B s =
      .next (t, encodeAnswer (Config.roma k) B) := by
  rw [convertAfter_sela]
  exact (convert_enc B (s.commitAlphabet (Config.roma k)).idle).imp fun _ h => h.1

theorem convertAfter_sela_dec (k : BitVec 1) (str : List Byte) (s : State) :
    ∃ t, convertAfter (encode (.sela k)) .dec str s =
      .next (t, decodeAnswer (Config.roma k) str) := by
  rw [convertAfter_sela]
  exact (convert_dec str (s := (s.commitAlphabet (Config.roma k)).idle)
    (alphabetInv_buildDect (roma_wellFormed k))).imp fun _ h => h.1

/-- Settles O54: SELA 0 and Reset make predefined alphabet 0 active, and the conversion answers what
RefEncode gives under it. -/
theorem facadeEncodeAnswers : Obligations.FacadeEncodeAnswers := by
  unfold Obligations.FacadeEncodeAnswers
  intro B s
  refine ⟨convertAfter_sela_enc 0#1 B s, ?_⟩
  rw [convertAfter_reset]
  exact (convert_enc B s.resetStep.idle).imp fun _ h => h.1

/-- Settles O55: the same with DEC, under the invariant that both establish. -/
theorem facadeDecodeAnswers : Obligations.FacadeDecodeAnswers := by
  unfold Obligations.FacadeDecodeAnswers
  intro str s
  refine ⟨convertAfter_sela_dec 0#1 str s, ?_⟩
  rw [convertAfter_reset]
  exact (convert_dec str (s := s.resetStep.idle) (inv_resetStep s).alphabet).imp fun _ h => h.1

/-! ### A caller-supplied alphabet -/

/-- A well-formed alphabet is loaded, and the conversion runs under it. -/
theorem convertWith_of_wellFormed {A : Vector Byte 58} (hwf : alphabetWellFormed A = true)
    (cmd : Instr) (bs : List Byte) (s : State) :
    ∃ t, convertWith cmd bs A.toList s = convert cmd bs t ∧ t.alpha = A ∧
      AlphabetInv t.alpha t.dect := by
  have hlen : ¬A.toList.length > Config.inMax := by
    rw [A.length_toList]
    decide
  obtain ⟨t, hrun, hreads, halpha, hinv, -, -⟩ := hostRun_loadScript_of_wellFormed s hwf
  have hread : t.lastRead = 0#32 := by rw [State.lastRead, hreads, List.headD_cons]
  refine ⟨t, ?_, halpha, hinv⟩
  rw [convertWith, if_neg hlen, hrun, andThen_next, if_pos hread]

theorem convertWith_enc {A : Vector Byte 58} (hwf : alphabetWellFormed A = true) (B : List Byte)
    (s : State) :
    ∃ t, convertWith .enc B A.toList s = .next (t, encodeAnswer A B) ∧ t.alpha = A := by
  obtain ⟨t, hload, rfl, -⟩ := convertWith_of_wellFormed hwf .enc B s
  rw [hload]
  exact convert_enc B t

theorem convertWith_dec {A : Vector Byte 58} (hwf : alphabetWellFormed A = true) (str : List Byte)
    (s : State) :
    ∃ t, convertWith .dec str A.toList s = .next (t, decodeAnswer A str) ∧ t.alpha = A := by
  obtain ⟨t, hload, rfl, hinv⟩ := convertWith_of_wellFormed hwf .dec str s
  rw [hload]
  exact convert_dec str hinv

/-- Settles O56: the loaded alphabet is active, and the conversion answers what the reference gives
under it. -/
theorem facadeWithAnAlphabetAnswers : Obligations.FacadeWithAnAlphabetAnswers := by
  unfold Obligations.FacadeWithAnAlphabetAnswers
  exact fun A bs s hwf => ⟨convertWith_enc hwf bs s, convertWith_dec hwf bs s⟩

/-- Settles O58: both ways make ROMA[k] active, under which the answer is the reference's. -/
theorem selectingAnAlphabetEqualsLoadingIt : Obligations.SelectingAnAlphabetEqualsLoadingIt := by
  unfold Obligations.SelectingAnAlphabetEqualsLoadingIt
  intro k cmd bs s hcmd
  have hwf := roma_wellFormed k
  obtain rfl | rfl := hcmd
  · obtain ⟨t, ht⟩ := convertAfter_sela_enc k bs s
    obtain ⟨u, hu, -⟩ := convertWith_enc hwf bs s
    exact ⟨t, u, _, ht, hu⟩
  · obtain ⟨t, ht⟩ := convertAfter_sela_dec k bs s
    obtain ⟨u, hu, -⟩ := convertWith_dec hwf bs s
    exact ⟨t, u, _, ht, hu⟩

/-- LDA refuses a sequence that is no alphabet (40_alphabet.md R74). -/
theorem exec_lda_put_of_malformed (s : State) {A : List Byte} (hle : A.length ≤ 256)
    (hbad : ¬(A.length = 58 ∧ (∀ b ∈ A, b.toNat < 128) ∧ A.Nodup)) :
    exec .lda (s.put A) = .next ((s.put A).raise .alphabetError) := by
  refine exec_lda_of_not_wellFormed fun hinLen hwf => hbad ?_
  have h58 : A.length = 58 := (s.put_inLen_toNat hle).symm.trans hinLen
  obtain ⟨hascii, hdup⟩ := (alphabetWellFormed_iff_loops _).1 hwf
  rw [ibufTable_put_toList s h58] at hascii hdup
  exact ⟨h58, fun b hb => of_decide_eq_true (hascii b hb), (hasDuplicate_eq_false_iff A).1 hdup⟩

/-- A malformed alphabet ends the operation, whatever was to be converted: one that fits IBUF when
LDA has refused it, a longer one before anything is put (log entry 13). -/
theorem convertWith_of_malformed (s : State) {A : List Byte}
    (hbad : ¬(A.length = 58 ∧ (∀ b ∈ A, b.toNat < 128) ∧ A.Nodup)) :
    ∃ t, (∀ cmd bs, convertWith cmd bs A s = .next (t, .error (errCode .alphabetError))) ∧
      t.alpha = s.alpha ∧ t.dect = s.dect ∧ t.obuf = s.obuf ∧ t.draws = s.draws := by
  by_cases hle : A.length ≤ 256
  · have hrun := hostRun_loadScript hle (exec_lda_put_of_malformed s hle hbad)
    refine ⟨(((s.put A).raise .alphabetError).returnRead 4#32).idle, fun cmd bs => ?_, rfl, rfl,
      rfl, rfl⟩
    rw [convertWith, if_neg (Nat.not_lt.2 hle), hrun, andThen_next]
    rfl
  · exact ⟨s, fun cmd bs => if_pos (Nat.not_le.1 hle), rfl, rfl, rfl, rfl⟩

/-- Settles O57: both operations are the load, which a malformed alphabet ends. -/
theorem facadeStopsOnAMalformedAlphabet : Obligations.FacadeStopsOnAMalformedAlphabet := by
  unfold Obligations.FacadeStopsOnAMalformedAlphabet
  intro A bs s hbad
  obtain ⟨t, hstop, hrest⟩ := convertWith_of_malformed s hbad
  exact ⟨t, hstop .enc bs, hstop .dec bs, hrest⟩

end Sys2Proof.Machine
